-- ==== Sys2Proof/Config.lean ====
section
/-! DEFINITION. The block's implementation parameters, each a named constant (spec/93_implementation_defined.md, part 2),
and the host's policy parameter. The spec leaves no value of an admitted instruction open, so there is no free value here. -/

namespace Sys2Proof.Config

/-- `W`, the width of every data register and of the immediate field (R7), at the spec's default.
DESIGN CHOICE (log entry 1), unsafe for a block built at another width. -/
abbrev W : Nat := 30

/-- `PCW`, the width of the program counter (R9), at the spec's default.
DESIGN CHOICE (log entry 2), unsafe for a block built at another width. -/
abbrev PCW : Nat := 32

/-- `ON_ERROR`, the host's policy after a failing step (R209). It is an argument of `hostRun`, never fixed. -/
inductive OnError
  /-- The host stops offering after the first step whose result is `Err`. -/
  | halt
  /-- The host goes on with the next offer. -/
  | skip
  deriving DecidableEq, Repr

end Sys2Proof.Config
end

