-- ==== Sys2Proof/Word.lean ====
section
/-! DEFINITION. The word types and the notation of R12: unsigned and signed readings, and `bits_n`. -/

namespace Sys2Proof

/-- A data register or immediate: W bits (R7, R21, R22). -/
abbrev Word := BitVec Config.W

/-- An instruction word of a block of width `w`: CTRL above IMM, `w + 8` bits (R10, R75). -/
abbrev IWord (w : Nat) := BitVec (8 + w)

/-- `uint(x)`, the unsigned reading (R12). -/
abbrev uint {n : Nat} (x : BitVec n) : Nat := x.toNat

/-- `sint_n(x)`, the two's-complement reading (R12). -/
abbrev sint {n : Nat} (x : BitVec n) : Int := x.toInt

/-- `bits_n(v)`, the n-bit vector with `uint = v mod 2^n` (R12). -/
abbrev bitsOf (n : Nat) (v : Int) : BitVec n := BitVec.ofInt n v

/-- The four general registers, in the order of R8. ACC is not one of them (R24). -/
inductive Reg
  | r1 | r2 | r3 | r4
  deriving DecidableEq, Repr

end Sys2Proof
end

