-- ==== Sys2Proof/Syntax.lean ====
section
/-! DEFINITION. The instructions: one constructor per row of spec/opcode_table.json. Fields the decoder ignores (R80)
are no operands. -/

namespace Sys2Proof

/-- The rows of the opcode table. Together they cover every instruction word exactly once (R79). -/
inductive Instr
  /-- `mov <integer>` (R140). -/
  | mov (imm : Word)
  /-- `save <register>` (R141). -/
  | save (r : Reg)
  /-- `add <register>` (R160). -/
  | addR (r : Reg)
  /-- `add <integer>` (R160). -/
  | addI (imm : Word)
  /-- `sub <register>` (R161). -/
  | subR (r : Reg)
  /-- `sub <integer>` (R161). -/
  | subI (imm : Word)
  /-- ERR word, K = 01 (R181). -/
  | errInvalidOperand
  /-- ERR word, K = 10 (R181). -/
  | errUnknownRegister
  /-- ERR word, K = 11 (R181). -/
  | errMalformedInstruction
  /-- Unknown: OPC = 100 with K = 00 (R81). -/
  | unkOpc100
  /-- Unknown: OPC = 101 (R81). -/
  | unkOpc101
  /-- Unknown: OPC = 110 (R81). -/
  | unkOpc110
  /-- Unknown, the canonical word's row: OPC = 111 (R81, R82). -/
  | unkOpc111
  deriving DecidableEq, Repr

end Sys2Proof
end

