-- ==== Sys2Proof/Decode.lean ====
section
/-! DEFINITION. Level B: the fields of the instruction word, the decoded instruction, the binary decoder, the decoder by
rows of the opcode table, and after them the encoder and the assembler (30_encoding.md R70, R75 to R82). Everything that
can be is stated for every width `w`. -/

namespace Sys2Proof

/-! ## The decoded instruction (R70) -/

/-- The error kinds a step can report (R70, R125). -/
inductive FailKind
  | invalidOperand | unknownRegister | malformedInstruction
  deriving DecidableEq, Repr

/-- The operand of `add` and `sub` (R70). -/
inductive Src (w : Nat)
  | reg (r : Reg)
  | imm (v : BitVec w)
  deriving DecidableEq, Repr

/-- A decoded instruction of a block of width `w` (R70). -/
inductive Decoded (w : Nat)
  | mov (imm : BitVec w)
  | save (r : Reg)
  | add (src : Src w)
  | sub (src : Src w)
  | unknown
  | fail (kind : FailKind)
  deriving DecidableEq, Repr

/-! ## Register indices (R23) -/

/-- Register index to register: 00 is R1, 01 R2, 10 R3, 11 R4 (R23). -/
def Reg.ofIndex (rs : BitVec 2) : Reg :=
  match rs with
  | 0b00#2 => .r1
  | 0b01#2 => .r2
  | 0b10#2 => .r3
  | 0b11#2 => .r4

/-- Register Rn has index n−1 (R23). -/
def Reg.index (r : Reg) : BitVec 2 :=
  match r with
  | .r1 => 0b00#2
  | .r2 => 0b01#2
  | .r3 => 0b10#2
  | .r4 => 0b11#2

/-! ## Fields of the instruction word (R75) -/

/-- `CTRL = IW[W+7:W]` (R75). -/
def ctrlOf {w : Nat} (iw : IWord w) : BitVec 8 := iw.extractLsb' w 8

/-- `IMM = IW[W−1:0]`, used as it stands (R75, R77). -/
def immOf {w : Nat} (iw : IWord w) : BitVec w := iw.extractLsb' 0 w

/-- `OPC = CTRL[7:5]` (R75). -/
def opcOf (ctrl : BitVec 8) : BitVec 3 := ctrl.extractLsb' 5 3

/-- `S = CTRL[4]`: 0 selects the register, 1 the immediate (R75). -/
def sOf (ctrl : BitVec 8) : BitVec 1 := ctrl.extractLsb' 4 1

/-- `K = CTRL[3:2]`, the failure kind of an ERR word (R75). -/
def kOf (ctrl : BitVec 8) : BitVec 2 := ctrl.extractLsb' 2 2

/-- `RS = CTRL[1:0]`, the register index (R75). -/
def rsOf (ctrl : BitVec 8) : BitVec 2 := ctrl.extractLsb' 0 2

/-- The word `CTRL ++ IMM` (R82). -/
def wordOf {w : Nat} (ctrl : BitVec 8) (imm : BitVec w) : IWord w := ctrl ++ imm

/-! ## The binary decoder (R79) -/

/-- The operand that S selects (R79). -/
def srcOf {w : Nat} (ctrl : BitVec 8) (imm : BitVec w) : Src w :=
  if sOf ctrl = 0#1 then .reg (Reg.ofIndex (rsOf ctrl)) else .imm imm

/-- `Decode(IW)` of R79, for every width: total, no word is illegal. -/
def decodeWord {w : Nat} (iw : IWord w) : Decoded w :=
  match opcOf (ctrlOf iw) with
  | 0b000#3 => .mov (immOf iw)
  | 0b001#3 => .save (Reg.ofIndex (rsOf (ctrlOf iw)))
  | 0b010#3 => .add (srcOf (ctrlOf iw) (immOf iw))
  | 0b011#3 => .sub (srcOf (ctrlOf iw) (immOf iw))
  | 0b100#3 =>
    match kOf (ctrlOf iw) with
    | 0b00#2 => .unknown
    | 0b01#2 => .fail .invalidOperand
    | 0b10#2 => .fail .unknownRegister
    | 0b11#2 => .fail .malformedInstruction
  | 0b101#3 => .unknown
  | 0b110#3 => .unknown
  | 0b111#3 => .unknown

/-! ## The decoder by rows of the opcode table -/

/-- The row a word belongs to, with its operands, at the model's width: the decoder that `step` uses. It is total (R79). -/
def decode (iw : IWord Config.W) : Instr :=
  match opcOf (ctrlOf iw) with
  | 0b000#3 => .mov (immOf iw)
  | 0b001#3 => .save (Reg.ofIndex (rsOf (ctrlOf iw)))
  | 0b010#3 => if sOf (ctrlOf iw) = 0#1 then .addR (Reg.ofIndex (rsOf (ctrlOf iw))) else .addI (immOf iw)
  | 0b011#3 => if sOf (ctrlOf iw) = 0#1 then .subR (Reg.ofIndex (rsOf (ctrlOf iw))) else .subI (immOf iw)
  | 0b100#3 =>
    match kOf (ctrlOf iw) with
    | 0b00#2 => .unkOpc100
    | 0b01#2 => .errInvalidOperand
    | 0b10#2 => .errUnknownRegister
    | 0b11#2 => .errMalformedInstruction
  | 0b101#3 => .unkOpc101
  | 0b110#3 => .unkOpc110
  | 0b111#3 => .unkOpc111

/-- The decoded instruction a row stands for (R70, R79). -/
def Instr.decoded (i : Instr) : Decoded Config.W :=
  match i with
  | .mov imm => .mov imm
  | .save r => .save r
  | .addR r => .add (.reg r)
  | .addI imm => .add (.imm imm)
  | .subR r => .sub (.reg r)
  | .subI imm => .sub (.imm imm)
  | .errInvalidOperand => .fail .invalidOperand
  | .errUnknownRegister => .fail .unknownRegister
  | .errMalformedInstruction => .fail .malformedInstruction
  | .unkOpc100 => .unknown
  | .unkOpc101 => .unknown
  | .unkOpc110 => .unknown
  | .unkOpc111 => .unknown

/-- A row of spec/opcode_table.json, by its CTRL pattern: it holds the words with `CTRL AND mask = match`. -/
structure Row where
  mnemonic : String
  ctrlMatch : BitVec 8
  ctrlMask : BitVec 8
  deriving DecidableEq, Repr

/-- The control values a row holds. -/
def Row.holds (row : Row) (ctrl : BitVec 8) : Bool := ctrl &&& row.ctrlMask == row.ctrlMatch

/-- spec/opcode_table.json, its `ctrl_match` and `ctrl_mask` columns. -/
def opcodeTable : List Row := [
  ⟨"mov", 0x00#8, 0xE0#8⟩,
  ⟨"save", 0x20#8, 0xE0#8⟩,
  ⟨"add.r", 0x40#8, 0xF0#8⟩,
  ⟨"add.i", 0x50#8, 0xF0#8⟩,
  ⟨"sub.r", 0x60#8, 0xF0#8⟩,
  ⟨"sub.i", 0x70#8, 0xF0#8⟩,
  ⟨".err_InvalidOperand", 0x84#8, 0xEC#8⟩,
  ⟨".err_UnknownRegister", 0x88#8, 0xEC#8⟩,
  ⟨".err_MalformedInstruction", 0x8C#8, 0xEC#8⟩,
  ⟨".unk__OPC_100__K_00", 0x80#8, 0xEC#8⟩,
  ⟨".unk__OPC_101", 0xA0#8, 0xE0#8⟩,
  ⟨".unk__OPC_110", 0xC0#8, 0xE0#8⟩,
  ⟨".unk__OPC_111", 0xE0#8, 0xE0#8⟩]

/-- The mnemonic of an instruction's row, as the opcode table spells it. -/
def Instr.mnemonic (i : Instr) : String :=
  match i with
  | .mov _ => "mov"
  | .save _ => "save"
  | .addR _ => "add.r"
  | .addI _ => "add.i"
  | .subR _ => "sub.r"
  | .subI _ => "sub.i"
  | .errInvalidOperand => ".err_InvalidOperand"
  | .errUnknownRegister => ".err_UnknownRegister"
  | .errMalformedInstruction => ".err_MalformedInstruction"
  | .unkOpc100 => ".unk__OPC_100__K_00"
  | .unkOpc101 => ".unk__OPC_101"
  | .unkOpc110 => ".unk__OPC_110"
  | .unkOpc111 => ".unk__OPC_111"

/-! ## The assembler and the encoder (R82) -/

/-- CTRL of a canonical register form: the base value plus `n − 1` (R82). -/
def ctrlWithReg (base : BitVec 8) (r : Reg) : BitVec 8 := base + r.index.zeroExtend 8

/-- CTRL of an ERR word (R82). -/
def FailKind.ctrl (k : FailKind) : BitVec 8 :=
  match k with
  | .invalidOperand => 0x84#8
  | .unknownRegister => 0x88#8
  | .malformedInstruction => 0x8C#8

/-- `asm(d)`, the canonical word of a decoded instruction, 0 in every field the table does not name (R82). -/
def asm {w : Nat} (d : Decoded w) : IWord w :=
  match d with
  | .mov imm => wordOf 0x00#8 imm
  | .save r => wordOf (ctrlWithReg 0x20#8 r) 0#w
  | .add (.reg r) => wordOf (ctrlWithReg 0x40#8 r) 0#w
  | .add (.imm imm) => wordOf 0x50#8 imm
  | .sub (.reg r) => wordOf (ctrlWithReg 0x60#8 r) 0#w
  | .sub (.imm imm) => wordOf 0x70#8 imm
  | .fail k => wordOf k.ctrl 0#w
  | .unknown => wordOf 0xE0#8 0#w

/-- The word of a row of the opcode table with every ignored bit 0 (R80). The rows of unknown words that no text line
assembles to (R82) take their row's match value. -/
def encode (i : Instr) : IWord Config.W :=
  match i with
  | .mov imm => wordOf 0x00#8 imm
  | .save r => wordOf (ctrlWithReg 0x20#8 r) 0#Config.W
  | .addR r => wordOf (ctrlWithReg 0x40#8 r) 0#Config.W
  | .addI imm => wordOf 0x50#8 imm
  | .subR r => wordOf (ctrlWithReg 0x60#8 r) 0#Config.W
  | .subI imm => wordOf 0x70#8 imm
  | .errInvalidOperand => wordOf 0x84#8 0#Config.W
  | .errUnknownRegister => wordOf 0x88#8 0#Config.W
  | .errMalformedInstruction => wordOf 0x8C#8 0#Config.W
  | .unkOpc100 => wordOf 0x80#8 0#Config.W
  | .unkOpc101 => wordOf 0xA0#8 0#Config.W
  | .unkOpc110 => wordOf 0xC0#8 0#Config.W
  | .unkOpc111 => wordOf 0xE0#8 0#Config.W

/-! ## The host's numbers -/

/-- The word on the `iw` port for an instruction written as a number of `nbits` bits: the port's W+8 low bits. The port
is a parallel vector with no byte order (R42); the padding that makes whole bytes is dropped (log entry 8). -/
def portWord (nbits n : Nat) : IWord Config.W := BitVec.ofNat (8 + Config.W) (n % 2 ^ nbits)

/-- The instruction the decoder reads from an instruction word given as a number. -/
def decodeTableWord (nbits w : Nat) : Option Instr := some (decode (portWord nbits w))

end Sys2Proof
end

