-- ==== Sys2Proof/Machine/Codec.lean ====
section
/-! DEFINITION. The word codec (40_word_codec.md R100 to R109): integers to bit strings and back. Pure functions; no
instruction calls them (R100). -/

namespace Sys2Proof

/-- Every error kind of the spec (R200): the three a step can report, and the codec's own. -/
inductive ErrorKind
  | step (k : FailKind)
  | invalidEncoding
  deriving DecidableEq, Repr

/-- The numeric code of an error kind (R200). Code 4 never stands on `err_o`. -/
def ErrorKind.code (e : ErrorKind) : Nat :=
  match e with
  | .step .invalidOperand => 1
  | .step .unknownRegister => 2
  | .step .malformedInstruction => 3
  | .invalidEncoding => 4

namespace Codec

/-- A string of the characters '0' and '1', most significant first (R101). -/
abbrev BitString := List Char

/-- The codec's range, `−2^(width−1) ≤ v < 2^(width−1)` (R68, R103). -/
abbrev InRange (width : Nat) (v : Int) : Prop :=
  -(2 : Int) ^ (width - 1) ≤ v ∧ v < (2 : Int) ^ (width - 1)

/-- One binary digit. -/
def bitChar (b : Bool) : Char := if b then '1' else '0'

/-- The low `n` binary digits of `u`, most significant first. -/
def lowDigits (n u : Nat) : BitString := (List.range n).reverse.map fun i => bitChar (u.testBit i)

/-- The standard binary representation of `u`, without leading zeros; that of 0 is "0" (R101). -/
def binary (u : Nat) : BitString := lowDigits (u.log2 + 1) u

/-- Zero-padding on the left to `width` characters (R101). It never shortens (90_conflicts.md C1). -/
def padLeft (width : Nat) (s : BitString) : BitString := List.replicate (width - s.length) '0' ++ s

/-- `encode(v, width)` (R101, R102), refused (`none`) outside its precondition (R103). -/
def encode (v : Int) (width : Nat) : Option BitString :=
  if 1 ≤ width ∧ InRange width v then
    some (padLeft width (binary (if 0 ≤ v then v else (2 : Int) ^ width + v).toNat))
  else none

/-- Whether a string is non-empty and binary (R106). -/
def wellFormedBits (bits : BitString) : Bool := !bits.isEmpty && bits.all fun c => c == '0' || c == '1'

/-- The value of a binary string read in base 2, leftmost digit most significant (R105). -/
def binaryValue (bits : BitString) : Nat := bits.foldl (fun u c => 2 * u + (if c = '1' then 1 else 0)) 0

/-- `decode(bits)` (R105), with the error of R106 on a malformed string. The width is the string's own length. -/
def decode (bits : BitString) : Except ErrorKind Int :=
  if wellFormedBits bits then
    .ok (if bits.head? = some '1' then (binaryValue bits : Int) - 2 ^ bits.length else binaryValue bits)
  else .error .invalidEncoding

end Codec

end Sys2Proof
end

