-- ==== Sys2Proof/Machine/Text.lean ====
section
/-! DEFINITION. Level T: the character set, the tokenizer, literals, register names and the text decoder
(30_encoding.md R61 to R74), and the disassembly spelling (R86). Stated for every width `w`. -/

namespace Sys2Proof

/-- One line of program text (R61). Splitting a file into lines is the host's job. -/
abbrev Line := List Char

/-- A maximal run of non-whitespace characters (R63). -/
abbrev Token := List Char

/-- Why a line has no meaning in the spec (R71). -/
inductive LineRefusal
  /-- A character outside the set of R62. -/
  | charset
  /-- A literal operand outside the W-bit range (R68). -/
  | literalRange
  /-- A token with `_` where a literal is possible (R67). -/
  | unsettledToken
  deriving DecidableEq, Repr

/-- TAB, LF, VT, FF, CR and SPACE (R62). -/
def isWhitespace (c : Char) : Bool := (0x09 ≤ c.toNat && c.toNat ≤ 0x0D) || c.toNat == 0x20

/-- Printable ASCII without the space, 0x21 to 0x7E (R62). -/
def isPrintable (c : Char) : Bool := 0x21 ≤ c.toNat && c.toNat ≤ 0x7E

/-- The characters a line may hold (R62). -/
def inCharset (c : Char) : Bool := isWhitespace c || isPrintable c

/-- Whether a line begins inside a token. -/
def beginsToken (l : Line) : Bool :=
  match l with
  | [] => false
  | c :: _ => !isWhitespace c

/-- Put a character in front of the first token. -/
def extendFirst (c : Char) (ts : List Token) : List Token :=
  match ts with
  | [] => [[c]]
  | t :: rest => (c :: t) :: rest

/-- `Tokenize(line)`: the maximal runs of non-whitespace characters, in order (R63). -/
def tokenize : Line → List Token
  | [] => []
  | c :: cs =>
    if isWhitespace c then tokenize cs
    else if beginsToken cs then extendFirst c (tokenize cs)
    else [c] :: tokenize cs

/-- The four recognized opcodes (R64). -/
inductive TextOp
  | mov | save | add | sub
  deriving DecidableEq, Repr

/-- Case-sensitive exact match of the opcode token (R64). -/
def opcodeOf (t : Token) : Option TextOp :=
  if t = ['m', 'o', 'v'] then some .mov
  else if t = ['s', 'a', 'v', 'e'] then some .save
  else if t = ['a', 'd', 'd'] then some .add
  else if t = ['s', 'u', 'b'] then some .sub
  else none

/-- The register names, matched exactly and case-sensitively (R23, R65). -/
def regNamed (t : Token) : Option Reg :=
  if t = ['R', '1'] then some .r1
  else if t = ['R', '2'] then some .r2
  else if t = ['R', '3'] then some .r3
  else if t = ['R', '4'] then some .r4
  else none

/-- A decimal digit (R66). -/
def isDigit (c : Char) : Bool := 0x30 ≤ c.toNat && c.toNat ≤ 0x39

/-- The value of one or more decimal digits (R66). -/
def digitsValue (t : Token) : Option Nat :=
  if !t.isEmpty && t.all isDigit then some (t.foldl (fun n c => 10 * n + (c.toNat - 0x30)) 0) else none

/-- The value of a token that matches `[+-]?[0-9]+` (R66). -/
def literalValue (t : Token) : Option Int :=
  match t with
  | '-' :: ds => (digitsValue ds).map fun (n : Nat) => -(n : Int)
  | '+' :: ds => (digitsValue ds).map fun (n : Nat) => (n : Int)
  | ds => (digitsValue ds).map fun (n : Nat) => (n : Int)

/-- The classes of an operand token (R67). -/
inductive LitClass
  | lit (v : Int)
  | outOfRange
  | unsettled
  | notLit
  deriving DecidableEq, Repr

/-- `ClassLit(t)` (R67, R68). -/
def classLit (w : Nat) (t : Token) : LitClass :=
  match literalValue t with
  | some v => if Codec.InRange w v then .lit v else .outOfRange
  | none => if t.contains '_' then .unsettled else .notLit

/-- The literal arm of R71, with `make` the instruction a literal in range gives. -/
def literalOperand (w : Nat) (t : Token) (make : BitVec w → Decoded w) : Except LineRefusal (Decoded w) :=
  match classLit w t with
  | .lit v => .ok (make (bitsOf w v))
  | .outOfRange => .error .literalRange
  | .unsettled => .error .unsettledToken
  | .notLit => .ok (.fail .invalidOperand)

/-- The register-first resolution of `add` and `sub` (R69, R71). -/
def sourceOperand (w : Nat) (t : Token) (make : Src w → Decoded w) : Except LineRefusal (Decoded w) :=
  match regNamed t with
  | some r => .ok (make (.reg r))
  | none => literalOperand w t fun v => make (.imm v)

/-- The `case op of` of R71, on the first operand token. -/
def decodeOperand (w : Nat) (op : TextOp) (t : Token) : Except LineRefusal (Decoded w) :=
  match op with
  | .mov => literalOperand w t .mov
  | .save =>
    match regNamed t with
    | some r => .ok (.save r)
    | none => .ok (.fail .unknownRegister)
  | .add => sourceOperand w t .add
  | .sub => sourceOperand w t .sub

/-- R71 on a line's tokens. Operand tokens after the first are ignored (R73). -/
def decodeTokens (w : Nat) (ts : List Token) : Except LineRefusal (Decoded w) :=
  match ts with
  | [] => .ok (.fail .malformedInstruction)
  | op :: operands =>
    match opcodeOf op with
    | none => .ok .unknown
    | some o =>
      match operands with
      | [] => .ok (.fail .malformedInstruction)
      | t :: _ => decodeOperand w o t

/-- `TextDecode(line)` (R71), the checks in the order written (R204). -/
def textDecode (w : Nat) (line : Line) : Except LineRefusal (Decoded w) :=
  if line.all inCharset then decodeTokens w (tokenize line) else .error .charset

/-! ## Disassembly (R86) -/

/-- Decimal digits of `n`, with `fuel` digits at most. -/
def decimalAux (fuel n : Nat) : List Char :=
  match fuel with
  | 0 => []
  | f + 1 => if n < 10 then [Char.ofNat (0x30 + n)] else decimalAux f (n / 10) ++ [Char.ofNat (0x30 + n % 10)]

/-- An integer in decimal, with `-` in front of a negative one. -/
def decimal (v : Int) : List Char :=
  if v < 0 then '-' :: decimalAux (v.natAbs + 1) v.natAbs else decimalAux (v.natAbs + 1) v.natAbs

/-- The name of a register (R65). -/
def Reg.name (r : Reg) : Token :=
  match r with
  | .r1 => ['R', '1']
  | .r2 => ['R', '2']
  | .r3 => ['R', '3']
  | .r4 => ['R', '4']

/-- The spelling of an operand (R86). -/
def Src.spelling {w : Nat} (src : Src w) : Token :=
  match src with
  | .reg r => r.name
  | .imm v => decimal (sint v)

/-- The name of an error kind, as R86 spells it. -/
def FailKind.name (k : FailKind) : Token :=
  match k with
  | .invalidOperand => "InvalidOperand".toList
  | .unknownRegister => "UnknownRegister".toList
  | .malformedInstruction => "MalformedInstruction".toList

/-- The disassembly spelling of a decoded instruction (R86). -/
def disassemble {w : Nat} (d : Decoded w) : Line :=
  match d with
  | .mov imm => ['m', 'o', 'v', ' '] ++ decimal (sint imm)
  | .save r => ['s', 'a', 'v', 'e', ' '] ++ r.name
  | .add src => ['a', 'd', 'd', ' '] ++ src.spelling
  | .sub src => ['s', 'u', 'b', ' '] ++ src.spelling
  | .fail k => ['.', 'e', 'r', 'r', ' '] ++ k.name
  | .unknown => ['.', 'u', 'n', 'k']

end Sys2Proof
end

