-- ==== Sys2Proof/WellFormed.lean ====
section
/-! DEFINITION. Well-formedness: of the parameters, of an instruction's operands, of a line, and of a program. The types
of `Instr` already keep every operand in range, so its check refuses no term (`Laws.operandsInRange`); the checks that
can fail are those on parameters, literals and lines. -/

namespace Sys2Proof

/-- The parameters are legal: W is a positive integer (R7, D2). That PCW is positive too is the model's choice: R9 and D4
give it a default and no lower bound (DESIGN CHOICE, log entry 20); no meaning depends on it. -/
def Config.legal (w pcw : Nat) : Bool := decide (1 ≤ w) && decide (1 ≤ pcw)

/-- An operand of R70: a register number in 1..4, or an immediate in the range of R68. -/
def Src.wellFormed {w : Nat} (src : Src w) : Bool :=
  match src with
  | .reg r => decide (r.index.toNat + 1 ≤ 4)
  | .imm v => decide (Codec.InRange w (sint v))

/-- The operands of an instruction are those R70 gives it. -/
def Instr.wellFormed (i : Instr) : Bool :=
  match i with
  | .mov imm => (Src.imm imm).wellFormed
  | .save r => (Src.reg (w := Config.W) r).wellFormed
  | .addR r => (Src.reg (w := Config.W) r).wellFormed
  | .addI imm => (Src.imm imm).wellFormed
  | .subR r => (Src.reg (w := Config.W) r).wellFormed
  | .subI imm => (Src.imm imm).wellFormed
  | .errInvalidOperand => true
  | .errUnknownRegister => true
  | .errMalformedInstruction => true
  | .unkOpc100 => true
  | .unkOpc101 => true
  | .unkOpc110 => true
  | .unkOpc111 => true

/-- A literal fits the block's width (R68). -/
def literalFits (w : Nat) (v : Int) : Bool := decide (Codec.InRange w v)

/-- The spec admits the line: TextDecode does not refuse it (R71, R121). A line with a failing decode is admitted. -/
def lineAdmitted (w : Nat) (line : Line) : Bool :=
  match textDecode w line with
  | .ok _ => true
  | .error _ => false

/-- An admitted program: every line is (10_state.md R38). -/
def programAdmitted (w : Nat) (program : List Line) : Bool := program.all (lineAdmitted w)

end Sys2Proof
end

