-- ==== Sys2Proof/Machine/State.lean ====
section
/-! DEFINITION. The block's state (10_state.md R20, R36), the host's supply, the reasons a step can stop, and reset (R33).
`Block` is the block at any widths W and PCW, which are parameters of the spec (R7, R9); `State` is the block at
`Config.W` and `Config.PCW` with what the host has yet to offer. -/

namespace Sys2Proof.Machine

/-- Why the machine stops with a fault: never. The block has no trap, no fault and no stuck state: a failing step is a
next state with its code on `err_o` (R124, R206, R209). Closed, without constructors (DEDUCED, log entry 17); safe. -/
inductive Fault
  deriving DecidableEq, Repr

/-- Why the model takes no step. -/
inductive Refusal
  /-- An instruction without a meaning yet: raised by an arm of `exec` only, and by none of them now; safe. -/
  | notModelled (mnemonic : String)
  /-- The host offered a line that the spec refuses (R71): raised by `takeOffer`, because "a model must not step on it"
  (R121); safe, since the spec gives the line no meaning (log entry 6). -/
  | lineRefused (reason : LineRefusal)
  deriving DecidableEq, Repr

/-- One thing the host sends over the interface (R35, R218). -/
inductive Offer (w : Nat)
  /-- A reset request, taken at a step boundary (R230, R232). -/
  | reset
  /-- An instruction word on `iw` with `iw_valid` (R34, R35). -/
  | word (iw : IWord w)
  /-- A line of text, at level T (R121). -/
  | line (text : Line)
  deriving DecidableEq, Repr

/-- The result of a step (R125). -/
inductive StepResult
  | ok
  | err (kind : FailKind)
  deriving DecidableEq, Repr

/-- Everything the spec gives a block of data width `w` and counter width `pcw` (R20), and its held output `err_o` (R36). -/
structure Block (w pcw : Nat) where
  /-- `ACC`, the accumulator (R21). -/
  acc : BitVec w
  /-- `R1` (R22). -/
  r1 : BitVec w
  /-- `R2` (R22). -/
  r2 : BitVec w
  /-- `R3` (R22). -/
  r3 : BitVec w
  /-- `R4` (R22). -/
  r4 : BitVec w
  /-- `SIGN`, the only flag (R25). -/
  sign : BitVec 1
  /-- `PC`, the count of steps since reset, modulo `2^pcw` (R27, R28). -/
  pc : BitVec pcw
  /-- `TC`, the cycle counter (R29). -/
  tc : BitVec 1
  /-- `err_o`, the result code of the last step (R36; log entry 11). -/
  err : BitVec 2
  deriving DecidableEq, Repr

/-- The machine's state: the block at the model's widths, with the model's own `supply`. -/
structure State extends Block Config.W Config.PCW where
  /-- The model's own field: what the host has yet to offer, oldest first (R41; DESIGN CHOICE, log entry 3). No meaning
  reads or writes it. -/
  supply : List (Offer Config.W)
  deriving DecidableEq, Repr

/-- The block right after reset, every field at the value of R33. -/
def Block.reset (w pcw : Nat) : Block w pcw where
  acc := 0#w
  r1 := 0#w
  r2 := 0#w
  r3 := 0#w
  r4 := 0#w
  sign := 0#1
  pc := 0#pcw
  tc := 0#1
  err := 0#2

/-- The machine right after reset. Nothing is offered yet (DESIGN CHOICE, log entries 3 and 4). -/
def State.reset : State where
  toBlock := Block.reset Config.W Config.PCW
  supply := []

end Sys2Proof.Machine
end

