-- ==== Sys2Proof/Machine/Flags.lean ====
section
/-! DEFINITION. The sign logic (R128), the only flag computation of the block (R25, R164), and the codes of `err_o` (R200). -/

namespace Sys2Proof.Machine

/-- The new SIGN: bit `w − 1` of the ALU's result (R25, R128). -/
def signOf {w : Nat} (result : BitVec w) : BitVec 1 := BitVec.ofBool (result.getLsbD (w - 1))

/-- The code of an error kind on `err_o` (R34, R200). -/
def failCode (k : FailKind) : BitVec 2 :=
  match k with
  | .invalidOperand => 1#2
  | .unknownRegister => 2#2
  | .malformedInstruction => 3#2

/-- `code(r)` of a step's result; `code(Ok) = 0` (R120, R200). -/
def resultCode (r : StepResult) : BitVec 2 :=
  match r with
  | .ok => 0#2
  | .err k => failCode k

end Sys2Proof.Machine
end

