-- ==== Sys2Proof/Machine/Operands.lean ====
section
/-! DEFINITION. Reading the register file and the operand multiplexer (R126), the block's only operand forms (R77, R142). -/

namespace Sys2Proof.Machine

/-- `R[n]`: the value of a general register (R22). Reading has no side effect (R44). -/
def readReg {w pcw : Nat} (r : Reg) (b : Block w pcw) : BitVec w :=
  match r with
  | .r1 => b.r1
  | .r2 => b.r2
  | .r3 => b.r3
  | .r4 => b.r4

/-- `OperandMux(src)`: the register file's output, or IMM as it stands (R77, R126). -/
def operandMux {w pcw : Nat} (src : Src w) (b : Block w pcw) : BitVec w :=
  match src with
  | .reg r => readReg r b
  | .imm v => v

end Sys2Proof.Machine
end

