-- ==== Sys2Proof/Machine/Ops.lean ====
section
/-! DEFINITION. The named operations every meaning is made of, at any widths: the counters of the step's skeleton (R120,
R129, R130), register writes, the XOR into the accumulator (R127), and the failing step (R181, R206). The block has no
return from an error, since there is no entry (R208). Reset (R230) is `Block.reset`. -/

namespace Sys2Proof.Machine

/-- `ACC <- v`, all W bits (R44). -/
def writeAcc {w pcw : Nat} (v : BitVec w) (b : Block w pcw) : Block w pcw := { b with acc := v }

/-- `R[n] <- v`, all W bits of one register (R44). -/
def writeReg {w pcw : Nat} (r : Reg) (v : BitVec w) (b : Block w pcw) : Block w pcw :=
  match r with
  | .r1 => { b with r1 := v }
  | .r2 => { b with r2 := v }
  | .r3 => { b with r3 := v }
  | .r4 => { b with r4 := v }

/-- The PC incrementer, `bits_PCW(uint(PC) + 1)` (R27, R129). -/
def nextPc {pcw : Nat} (pc : BitVec pcw) : BitVec pcw := bitsOf pcw (uint pc + 1)

/-- The start of every step: `TC <- 0`, then PC moves on (R120). The TC of 0 is seen by nothing (R130, log entry 13). -/
def startStep {w pcw : Nat} (b : Block w pcw) : Block w pcw := { b with tc := 0#1, pc := nextPc b.pc }

/-- The end of every step: `TC <- 1` and the result's code on `err_o` (R120, R122). -/
def finishStep {w pcw : Nat} (r : StepResult) (b : Block w pcw) : Block w pcw := { b with tc := 1#1, err := resultCode r }

/-- The ALU's one operation, W-bit bitwise XOR (R127). -/
def aluXor {w : Nat} (a v : BitVec w) : BitVec w := a ^^^ v

/-- `v <- OperandMux(src); ACC <- ACC XOR v; SIGN <- ACC[W−1]`, SIGN from the new ACC (R160). -/
def xorIntoAcc {w pcw : Nat} (src : Src w) (b : Block w pcw) : Block w pcw :=
  let result := aluXor b.acc (operandMux src b)
  { b with acc := result, sign := signOf result }

/-- `R[n] <- ACC` (R141). -/
def saveAcc {w pcw : Nat} (r : Reg) (b : Block w pcw) : Block w pcw := writeReg r b.acc b

/-- Taking an error, `raise Error(kind)`: the block saves nothing, goes nowhere, and writes PC, TC and `err_o` only
(R124, R206). The machine is ready for the next step at once (R209). -/
def raiseError {w pcw : Nat} (k : FailKind) (b : Block w pcw) : Block w pcw := finishStep (.err k) (startStep b)

/-- The state with its block replaced; what the host has yet to offer is the host's, and stays. -/
def State.withBlock (s : State) (b : Block Config.W Config.PCW) : State := { s with toBlock := b }

end Sys2Proof.Machine
end

