-- ==== Sys2Proof/Machine/DataMovement.lean ====
section
/-! DEFINITION. `mov` and `save` (42_data_movement.md). -/

namespace Sys2Proof.Machine

/-- `mov <integer>`: `ACC <- imm`; SIGN is unchanged (R140). -/
def execMov (imm : Word) (s : State) : Host.Outcome State Fault Refusal :=
  .next (s.withBlock (finishStep .ok (writeAcc imm (startStep s.toBlock))))

/-- `save <register>`: `R[n] <- ACC`; ACC and SIGN are unchanged (R141). -/
def execSave (r : Reg) (s : State) : Host.Outcome State Fault Refusal :=
  .next (s.withBlock (finishStep .ok (saveAcc r (startStep s.toBlock))))

end Sys2Proof.Machine
end

