-- ==== Sys2Proof/Machine/Failing.lean ====
section
/-! DEFINITION. The three rows of ERR words: a failing step of their kind (R181). A failing step is not a halt (R209). -/

namespace Sys2Proof.Machine

/-- K = 01 (R181). -/
def execErrInvalidOperand (s : State) : Host.Outcome State Fault Refusal := .next (s.withBlock (raiseError .invalidOperand s.toBlock))

/-- K = 10 (R181). -/
def execErrUnknownRegister (s : State) : Host.Outcome State Fault Refusal := .next (s.withBlock (raiseError .unknownRegister s.toBlock))

/-- K = 11 (R181). -/
def execErrMalformedInstruction (s : State) : Host.Outcome State Fault Refusal := .next (s.withBlock (raiseError .malformedInstruction s.toBlock))

end Sys2Proof.Machine
end

