-- ==== Sys2Proof/Machine/Unknown.lean ====
section
/-! DEFINITION. The four rows of unknown words: the common step, with result `Ok`, and nothing else (R81, R180). -/

namespace Sys2Proof.Machine

/-- OPC = 100 with K = 00 (R180). -/
def execUnkOpc100 (s : State) : Host.Outcome State Fault Refusal := .next (s.withBlock (finishStep .ok (startStep s.toBlock)))

/-- OPC = 101 (R180). -/
def execUnkOpc101 (s : State) : Host.Outcome State Fault Refusal := .next (s.withBlock (finishStep .ok (startStep s.toBlock)))

/-- OPC = 110 (R180). -/
def execUnkOpc110 (s : State) : Host.Outcome State Fault Refusal := .next (s.withBlock (finishStep .ok (startStep s.toBlock)))

/-- OPC = 111, the canonical unknown word's row (R180). -/
def execUnkOpc111 (s : State) : Host.Outcome State Fault Refusal := .next (s.withBlock (finishStep .ok (startStep s.toBlock)))

end Sys2Proof.Machine
end

