-- ==== Sys2Proof/Machine/XorAlu.lean ====
section
/-! DEFINITION. `add` and `sub`, both of which XOR their operand into the accumulator (43_xor_alu.md). -/

namespace Sys2Proof.Machine

/-- `add <register>` (R160). -/
def execAddR (r : Reg) (s : State) : Host.Outcome State Fault Refusal :=
  .next (s.withBlock (finishStep .ok (xorIntoAcc (.reg r) (startStep s.toBlock))))

/-- `add <integer>` (R160). -/
def execAddI (imm : Word) (s : State) : Host.Outcome State Fault Refusal :=
  .next (s.withBlock (finishStep .ok (xorIntoAcc (.imm imm) (startStep s.toBlock))))

/-- `sub <register>`: exactly as `add` (R161). -/
def execSubR (r : Reg) (s : State) : Host.Outcome State Fault Refusal :=
  .next (s.withBlock (finishStep .ok (xorIntoAcc (.reg r) (startStep s.toBlock))))

/-- `sub <integer>`: exactly as `add` (R161). -/
def execSubI (imm : Word) (s : State) : Host.Outcome State Fault Refusal :=
  .next (s.withBlock (finishStep .ok (xorIntoAcc (.imm imm) (startStep s.toBlock))))

end Sys2Proof.Machine
end

