-- ==== Sys2Proof/Machine/Dispatch.lean ====
section
/-! DEFINITION. `exec`: one arm per row of the opcode table. -/

namespace Sys2Proof.Machine

def exec (i : Instr) (s : State) : Host.Outcome State Fault Refusal :=
  match i with
  | .mov imm => Sys2Proof.Machine.execMov imm s
  | .save r => Sys2Proof.Machine.execSave r s
  | .addR r => Sys2Proof.Machine.execAddR r s
  | .addI imm => Sys2Proof.Machine.execAddI imm s
  | .subR r => Sys2Proof.Machine.execSubR r s
  | .subI imm => Sys2Proof.Machine.execSubI imm s
  | .errInvalidOperand => Sys2Proof.Machine.execErrInvalidOperand s
  | .errUnknownRegister => Sys2Proof.Machine.execErrUnknownRegister s
  | .errMalformedInstruction => Sys2Proof.Machine.execErrMalformedInstruction s
  | .unkOpc100 => Sys2Proof.Machine.execUnkOpc100 s
  | .unkOpc101 => Sys2Proof.Machine.execUnkOpc101 s
  | .unkOpc110 => Sys2Proof.Machine.execUnkOpc110 s
  | .unkOpc111 => Sys2Proof.Machine.execUnkOpc111 s

end Sys2Proof.Machine
end

