-- ==== Sys2Proof/Machine/Perform.lean ====
section
/-! DEFINITION. The spec's own machine, at any widths W and PCW: `Perform` and `Step` (R120), `Execute` (R121), the block's
answer to an offer (R35), and the host's run under its error policy (R209, R219). -/

namespace Sys2Proof.Machine

/-- `Perform(d)`: the writes of a decoded instruction, and its result (R120, R131). -/
def perform {w pcw : Nat} (d : Decoded w) (b : Block w pcw) : Block w pcw × StepResult :=
  match d with
  | .mov imm => (writeAcc imm b, .ok)
  | .save r => (saveAcc r b, .ok)
  | .add src => (xorIntoAcc src b, .ok)
  | .sub src => (xorIntoAcc src b, .ok)
  | .unknown => (b, .ok)
  | .fail k => (b, .err k)

/-- `TC <- 0; PC <- PC + 1; r <- Perform(d); TC <- 1; err_o <- code(r)` (R120, R121). -/
def stepDecoded {w pcw : Nat} (d : Decoded w) (b : Block w pcw) : Block w pcw :=
  let performed := perform d (startStep b)
  finishStep performed.2 performed.1

/-- `Step(IW)` (R120). Its result stands on `err_o`. -/
def stepWord {w pcw : Nat} (iw : IWord w) (b : Block w pcw) : Block w pcw := stepDecoded (decodeWord iw) b

/-- `Execute(line)`: a refused line is no step, any other line is the step of its decoded instruction (R121). -/
def executeLine {w pcw : Nat} (line : Line) (b : Block w pcw) : Except LineRefusal (Block w pcw) :=
  match textDecode w line with
  | .error reason => .error reason
  | .ok d => .ok (stepDecoded d b)

/-- The block's answer to one offer: `Reset()` (R230), `Step(iw)` (R120) or `Execute(line)` (R121). -/
def Block.take {w pcw : Nat} (o : Offer w) (b : Block w pcw) : Except LineRefusal (Block w pcw) :=
  match o with
  | .reset => .ok (Block.reset w pcw)
  | .word iw => .ok (stepWord iw b)
  | .line text => executeLine text b

/-- Whether the host stops after this step: under `halt`, when its result is `Err` (R209, R219). -/
def stopsAfter {w pcw : Nat} (policy : Config.OnError) (b : Block w pcw) : Bool := policy == .halt && b.err != 0#2

/-- The host's run of a list of offers (R219). The policy is the OPEN parameter `ON_ERROR` (log entry 10). A refused line
ends the run without a step. -/
def hostRun {w pcw : Nat} (policy : Config.OnError) (offers : List (Offer w)) (b : Block w pcw) :
    Except LineRefusal (Block w pcw) :=
  match offers with
  | [] => .ok b
  | o :: rest =>
    match b.take o with
    | .ok c => if stopsAfter policy c then .ok c else hostRun policy rest c
    | .error reason => .error reason

/-- A run of a program: it starts at a reset (R219). -/
def runProgram {w : Nat} (pcw : Nat) (policy : Config.OnError) (offers : List (Offer w)) : Except LineRefusal (Block w pcw) :=
  hostRun policy offers (Block.reset w pcw)

end Sys2Proof.Machine
end

