-- ==== Sys2Proof/Machine/Supply.lean ====
section
/-! DEFINITION. What the machine does with what the host offers (R35, R218). A word goes through the decoder by rows and
`exec`; a line goes through the text decoder. -/

namespace Sys2Proof.Machine

/-- A line's step on the machine: a refused line is refused, because "a model must not step on it" (R121). -/
def runLine (text : Line) (s : State) : Host.Outcome State Fault Refusal :=
  match executeLine text s.toBlock with
  | .ok b => .next (s.withBlock b)
  | .error reason => .refused (.lineRefused reason)

/-- The machine's answer to one offer: `Reset()` (R230), `Step(iw)` (R120), or `Execute(line)` (R121). -/
def takeOffer (o : Offer Config.W) (s : State) : Host.Outcome State Fault Refusal :=
  match o with
  | .reset => .next (s.withBlock (Block.reset Config.W Config.PCW))
  | .word iw => exec (decode iw) s
  | .line text => runLine text s

/-- One step of the closed machine: take the oldest offer. Without an offer the block holds its state and does nothing
(R35, R217; log entry 19). -/
def takeNext (s : State) : Host.Outcome State Fault Refusal :=
  match s.supply with
  | [] => .next s
  | o :: rest => takeOffer o { s with supply := rest }

/-- The host offers these after what it already has to offer. -/
def State.offering (s : State) (offers : List (Offer Config.W)) : State := { s with supply := s.supply ++ offers }

end Sys2Proof.Machine
end

