-- ==== Sys2Proof/Machine/Step.lean ====
section
/-! DEFINITION. The machine's step, and the host's way to place an instruction where the next step takes it. -/

namespace Sys2Proof.Machine

/-- One step: the block takes the host's next offer (R35). -/
def step (s : State) : Host.Outcome State Fault Refusal := takeNext s

/-- The same state, with an instruction word as the host's next offer (log entry 4). -/
def State.withFetchWord (s : State) (nbits w : Nat) : State := { s with supply := .word (portWord nbits w) :: s.supply }

end Sys2Proof.Machine
end

