-- ==== Sys2Proof/Machine/Observe.lean ====
section
/-! DEFINITION. What the outside sees: the state outputs (R34, R37) and the content of the per-instruction output record
(R214; log entry 16). The record's labels, separators and spacing are out of scope (R5). -/

namespace Sys2Proof.Machine

/-- The state outputs of R34, with the result code. -/
structure Snapshot (w pcw : Nat) where
  acc_o : BitVec w
  r1_o : BitVec w
  r2_o : BitVec w
  r3_o : BitVec w
  r4_o : BitVec w
  sign_o : BitVec 1
  pc_o : BitVec pcw
  tc_o : BitVec 1
  err_o : BitVec 2
  deriving DecidableEq, Repr

/-- The state outputs always show the current state (R36, R37). -/
def snapshot {w pcw : Nat} (b : Block w pcw) : Snapshot w pcw where
  acc_o := b.acc
  r1_o := b.r1
  r2_o := b.r2
  r3_o := b.r3
  r4_o := b.r4
  sign_o := b.sign
  pc_o := b.pc
  tc_o := b.tc
  err_o := b.err

/-- The fields of the output record, in the source's order; the numbers are printed in decimal (R214). -/
structure OutputRecord where
  text : Line
  acc : Codec.BitString
  r1 : Codec.BitString
  r2 : Codec.BitString
  r3 : Codec.BitString
  r4 : Codec.BitString
  ins : Line
  pc : Nat
  tc : Nat
  sign : Nat
  deriving DecidableEq, Repr

/-- A register in binary, `encode(sint_W(x), W)` (R104, R108, R214). -/
def render {w : Nat} (x : BitVec w) : Option Codec.BitString := Codec.encode (sint x) w

/-- The record of a step: the host's line in fields 1 and 4, the block's outputs in the others (R214). -/
def outputRecord {w pcw : Nat} (text : Line) (o : Snapshot w pcw) : Option OutputRecord := do
  let acc ← render o.acc_o
  let r1 ← render o.r1_o
  let r2 ← render o.r2_o
  let r3 ← render o.r3_o
  let r4 ← render o.r4_o
  return { text, acc, r1, r2, r3, r4, ins := text, pc := uint o.pc_o, tc := uint o.tc_o, sign := uint o.sign_o }

end Sys2Proof.Machine
end

