-- ==== Sys2Proof/Machine/Source.lean ====
section
/-! DEFINITION. The source's software engine with its unbounded integers, as the spec's quotations describe it: the
yardstick of 10_state.md R38 and 43_xor_alu.md R165. The block does not use it (DEDUCED, log entry 14). -/

namespace Sys2Proof.Source

/-- The source's `ProcessorState`: integers of unbounded size (R20, R21). -/
structure Engine where
  acc : Int
  r1 : Int
  r2 : Int
  r3 : Int
  r4 : Int
  sign : Nat
  pc : Nat
  tc : Nat
  deriving DecidableEq, Repr

/-- The engine as it is created, with zero values (R33). -/
def Engine.initial : Engine where
  acc := 0
  r1 := 0
  r2 := 0
  r3 := 0
  r4 := 0
  sign := 0
  pc := 0
  tc := 0

/-- Bitwise XOR of signed integers, read on their infinite two's-complement bit strings (R165): bit by bit on the
magnitudes, a negative integer `−(n + 1)` being the complement of `n`. -/
def intXor (a b : Int) : Int :=
  match a, b with
  | .ofNat m, .ofNat n => .ofNat (m ^^^ n)
  | .ofNat m, .negSucc n => .negSucc (m ^^^ n)
  | .negSucc m, .ofNat n => .negSucc (m ^^^ n)
  | .negSucc m, .negSucc n => .ofNat (m ^^^ n)

/-- The value of a register of the source's mapping (R22). -/
def Engine.read (r : Reg) (u : Engine) : Int :=
  match r with
  | .r1 => u.r1
  | .r2 => u.r2
  | .r3 => u.r3
  | .r4 => u.r4

/-- Write a register of the source's mapping (R22). -/
def Engine.write (r : Reg) (v : Int) (u : Engine) : Engine :=
  match r with
  | .r1 => { u with r1 := v }
  | .r2 => { u with r2 := v }
  | .r3 => { u with r3 := v }
  | .r4 => { u with r4 := v }

/-- `accumulator := accumulator XOR operand_value`; `sign = 1` if the result is negative, else 0 (R127, R128). -/
def Engine.xorInto (v : Int) (u : Engine) : Engine :=
  let result := intXor u.acc v
  { u with acc := result, sign := if result < 0 then 1 else 0 }

/-- The operand of `add` and `sub`, register first, then integer literal (R69). -/
def Engine.operand (t : Token) (u : Engine) : Option Int :=
  match regNamed t with
  | some r => some (u.read r)
  | none => literalValue t

/-- The dispatch on a line's tokens (R120, source step 3): unknown opcodes and failing instructions change nothing here. -/
def Engine.dispatch (ts : List Token) (u : Engine) : Engine :=
  match ts with
  | [] => u
  | op :: operands =>
    match opcodeOf op, operands with
    | none, _ => u
    | some _, [] => u
    | some .mov, t :: _ =>
      match literalValue t with
      | some v => { u with acc := v }
      | none => u
    | some .save, t :: _ =>
      match regNamed t with
      | some r => u.write r u.acc
      | none => u
    | some .add, t :: _ =>
      match u.operand t with
      | some v => u.xorInto v
      | none => u
    | some .sub, t :: _ =>
      match u.operand t with
      | some v => u.xorInto v
      | none => u

/-- The source's `execute`: `tc` to 0 and `pc` up by 1, dispatch, `tc` to 1 (R120, R122, R123). -/
def Engine.execute (u : Engine) (line : Line) : Engine :=
  let v := Engine.dispatch (tokenize line) { u with tc := 0, pc := u.pc + 1 }
  { v with tc := 1 }

/-- A block and an engine agree, as R38 says: the block's registers are the engine's integers, SIGN is its sign, TC its
`tc`, and PC its `pc` modulo `2^pcw`. -/
structure Agrees {w pcw : Nat} (u : Engine) (b : Machine.Block w pcw) : Prop where
  acc : sint b.acc = u.acc
  r1 : sint b.r1 = u.r1
  r2 : sint b.r2 = u.r2
  r3 : sint b.r3 = u.r3
  r4 : sint b.r4 = u.r4
  sign : uint b.sign = u.sign
  pc : uint b.pc = u.pc % 2 ^ pcw
  tc : uint b.tc = u.tc

end Sys2Proof.Source
end

