-- ==== Sys2Proof/Safety.lean ====
section
/-! DEFINITION. What the statements call safe, in the machine's terms. -/

namespace Sys2Proof.Machine

/-- A step or a run answers a next state: no fault, no refusal. -/
def Completes (o : Host.Outcome State Fault Refusal) : Prop := ∃ t, o = .next t

/-- An offer the spec gives a meaning: a reset, any word (R79), or a line that TextDecode does not refuse (R121). -/
def offerAdmitted {w : Nat} (o : Offer w) : Bool :=
  match o with
  | .reset => true
  | .word _ => true
  | .line text => lineAdmitted w text

/-- Whether an offer is a step, and so counts in PC: a reset is not (R28). -/
def isStepOffer {w : Nat} (o : Offer w) : Bool :=
  match o with
  | .reset => false
  | .word _ => true
  | .line _ => true

/-- The number of steps since the last reset of a run that begins at one (R28). -/
def stepsSinceReset {w : Nat} (offers : List (Offer w)) : Nat :=
  offers.foldl (fun n o => if isStepOffer o then n + 1 else 0) 0

/-- An instruction word written out by its fields (R75). -/
def fieldWord {w : Nat} (opc : BitVec 3) (s : BitVec 1) (k rs : BitVec 2) (imm : BitVec w) : IWord w :=
  ((opc ++ s ++ k ++ rs : BitVec 8) ++ imm : BitVec (8 + w))

/-- The bits of a register from the most significant down to bit 0, as characters (R108). -/
def bitStringOf {w : Nat} (x : BitVec w) : Codec.BitString :=
  (List.range w).map fun i => Codec.bitChar (x.getLsbD (w - 1 - i))

/-- The three opcodes whose operand may be a literal (R84). -/
def takesLiteral (op : Token) : Prop := op = "mov".toList ∨ op = "add".toList ∨ op = "sub".toList

/-- The four recognized opcodes (R64). -/
def isRecognized (op : Token) : Prop := takesLiteral op ∨ op = "save".toList

/-- TC is 0 in no block but the one a reset leaves: TC = 0 after reset and before the first step, and TC = 1 at every
later step boundary (R29, R33). -/
def TcMarksReset {w pcw : Nat} (b : Block w pcw) : Prop := b.tc = 0#1 → b = Block.reset w pcw

/-- Two blocks hold the same data registers (the only state an instruction reads, R20). -/
def SameData {w pcw : Nat} (b c : Block w pcw) : Prop :=
  b.acc = c.acc ∧ b.r1 = c.r1 ∧ b.r2 = c.r2 ∧ b.r3 = c.r3 ∧ b.r4 = c.r4

end Sys2Proof.Machine
end

