-- ==== Sys2Proof/Certificates/Slice0/Obligations.lean ====
section
/-! DEFINITION. The statements for the provers. -/

open Sys2Proof Sys2Proof.Machine

/-! ### Reset and the step -/

/-- R33, R230: a reset, offered in any state, completes with every piece of state at 0; so does the state a run starts
in; so is the block's reset at every width. -/
def Obligations.ResetZeroesEveryPieceOfState : Prop :=
  (∀ s : State, ∃ t, takeOffer .reset s = .next t ∧ t.acc = 0 ∧ (∀ r, readReg r t.toBlock = 0) ∧ t.sign = 0 ∧
    t.pc = 0 ∧ t.tc = 0 ∧ t.err = 0) ∧
  (State.reset.acc = 0 ∧ (∀ r, readReg r State.reset.toBlock = 0) ∧ State.reset.sign = 0 ∧ State.reset.pc = 0 ∧
    State.reset.tc = 0 ∧ State.reset.err = 0) ∧
  (∀ (w pcw : Nat) (b : Block w pcw), ∃ c, b.take .reset = .ok c ∧ c.acc = 0#w ∧ (∀ r, readReg r c = 0#w) ∧
    c.sign = 0 ∧ c.pc = 0#pcw ∧ c.tc = 0 ∧ c.err = 0)

/-- The model's supply (log entries 3, 4, 5, 8 and 19), not a rule of the spec: step takes the oldest offer and runs it on
the state with that offer taken away; a word runs as the instruction it decodes to; a reset keeps what is still to be
offered; without an offer nothing changes. -/
def Obligations.StepRunsTheDecodedInstruction : Prop :=
  ∀ (s : State) (rest : List (Offer Config.W)),
    (∀ iw, step { s with supply := .word iw :: rest } = exec (decode iw) { s with supply := rest }) ∧
    (∀ text, step { s with supply := .line text :: rest } = runLine text { s with supply := rest }) ∧
    step { s with supply := .reset :: rest } = .next { State.reset with supply := rest } ∧
    step { s with supply := [] } = .next { s with supply := [] } ∧
    (∀ nbits w i, decodeTableWord nbits w = some i → step (s.withFetchWord nbits w) = exec i s)

/-! ### What each instruction does, and that it completes -/

/-- `mov <integer>` (R140, Pseudocode and Flags): ACC takes the immediate; nothing else but PC, TC and err_o changes. -/
def Obligations.MovLoadsTheImmediate : Prop :=
  ∀ (imm : Word) (s : State),
    exec (.mov imm) s = .next { s with acc := imm, pc := s.pc + 1, tc := 1, err := 0 }

/-- `save <register>` (R141, Pseudocode and Flags): the named register takes ACC; the other three, ACC and SIGN keep
their values; PC moves on, TC ends at 1 and the result is Ok. -/
def Obligations.SaveCopiesTheAccumulator : Prop :=
  ∀ (r : Reg) (s : State), ∃ t, exec (.save r) s = .next t ∧ readReg r t.toBlock = s.acc ∧
    (∀ q, q ≠ r → readReg q t.toBlock = readReg q s.toBlock) ∧ t.acc = s.acc ∧ t.sign = s.sign ∧
    t.pc = s.pc + 1 ∧ t.tc = 1 ∧ t.err = 0 ∧ t.supply = s.supply

/-- `add <register>` (R160, Pseudocode and Flags). -/
def Obligations.AddRegisterXorsIntoTheAccumulator : Prop :=
  ∀ (r : Reg) (s : State),
    exec (.addR r) s = .next { s with
      acc := s.acc ^^^ readReg r s.toBlock, sign := BitVec.ofBool ((s.acc ^^^ readReg r s.toBlock).getLsbD (Config.W - 1)),
      pc := s.pc + 1, tc := 1, err := 0 }

/-- `add <integer>` (R160, Pseudocode and Flags). -/
def Obligations.AddImmediateXorsIntoTheAccumulator : Prop :=
  ∀ (imm : Word) (s : State),
    exec (.addI imm) s = .next { s with
      acc := s.acc ^^^ imm, sign := BitVec.ofBool ((s.acc ^^^ imm).getLsbD (Config.W - 1)),
      pc := s.pc + 1, tc := 1, err := 0 }

/-- `sub <register>` (R161, Pseudocode and Flags): XOR, not subtraction. -/
def Obligations.SubRegisterXorsIntoTheAccumulator : Prop :=
  ∀ (r : Reg) (s : State),
    exec (.subR r) s = .next { s with
      acc := s.acc ^^^ readReg r s.toBlock, sign := BitVec.ofBool ((s.acc ^^^ readReg r s.toBlock).getLsbD (Config.W - 1)),
      pc := s.pc + 1, tc := 1, err := 0 }

/-- `sub <integer>` (R161, Pseudocode and Flags): XOR, not subtraction. -/
def Obligations.SubImmediateXorsIntoTheAccumulator : Prop :=
  ∀ (imm : Word) (s : State),
    exec (.subI imm) s = .next { s with
      acc := s.acc ^^^ imm, sign := BitVec.ofBool ((s.acc ^^^ imm).getLsbD (Config.W - 1)),
      pc := s.pc + 1, tc := 1, err := 0 }

/-- The three ERR words (R181, Pseudocode): the step completes and writes PC, TC and err_o only. -/
def Obligations.ErrWordsReportTheirKindAndCompleteTheStep : Prop :=
  ∀ s : State,
    exec .errInvalidOperand s = .next { s with pc := s.pc + 1, tc := 1, err := 1 } ∧
    exec .errUnknownRegister s = .next { s with pc := s.pc + 1, tc := 1, err := 2 } ∧
    exec .errMalformedInstruction s = .next { s with pc := s.pc + 1, tc := 1, err := 3 }

/-- The four unknown words (R180, Pseudocode): nothing beyond the common step, with result Ok. -/
def Obligations.UnknownWordsDoOnlyTheCommonStep : Prop :=
  ∀ s : State,
    exec .unkOpc100 s = .next { s with pc := s.pc + 1, tc := 1, err := 0 } ∧
    exec .unkOpc101 s = .next { s with pc := s.pc + 1, tc := 1, err := 0 } ∧
    exec .unkOpc110 s = .next { s with pc := s.pc + 1, tc := 1, err := 0 } ∧
    exec .unkOpc111 s = .next { s with pc := s.pc + 1, tc := 1, err := 0 }

/-- From R120, R121, R35, R230: every row of the opcode table does exactly what the spec's Step does with the row's
decoded instruction, and the machine answers every offer, a reset among them, as the block does. Two parts of the second
clause are the model's: what the host has still to offer stays, across a reset too (DESIGN CHOICE, log entries 3 and 5),
and a refused line is answered with `lineRefused` (DEDUCED from R121, log entry 6). -/
def Obligations.EveryRowPerformsItsDecodedInstruction : Prop :=
  (∀ (i : Instr) (s : State), exec i s = .next (s.withBlock (stepDecoded i.decoded s.toBlock))) ∧
  (∀ (o : Offer Config.W) (s : State), takeOffer o s =
    match s.toBlock.take o with
    | .ok b => .next (s.withBlock b)
    | .error reason => .refused (.lineRefused reason))

/-- R131, the table of writes, row by row, at every width; "—" is "unchanged", and the result stands on err_o. TC is 0
inside the step. -/
def Obligations.WritesOfEachDecodedInstruction : Prop :=
  ∀ (w pcw : Nat) (b : Block w pcw),
    (startStep b).tc = 0 ∧
    (∀ imm, stepDecoded (.mov imm) b = { b with acc := imm, pc := b.pc + 1#pcw, tc := 1, err := 0 }) ∧
    (∀ r, stepDecoded (.save r) b = { writeReg r b.acc b with pc := b.pc + 1#pcw, tc := 1, err := 0 } ∧
      readReg r (stepDecoded (.save r) b) = b.acc ∧
      ∀ q, q ≠ r → readReg q (stepDecoded (.save r) b) = readReg q b) ∧
    (∀ src, stepDecoded (.add src) b = { b with
      acc := b.acc ^^^ operandMux src b, sign := BitVec.ofBool ((b.acc ^^^ operandMux src b).getLsbD (w - 1)),
      pc := b.pc + 1#pcw, tc := 1, err := 0 }) ∧
    (∀ src, stepDecoded (.sub src) b = { b with
      acc := b.acc ^^^ operandMux src b, sign := BitVec.ofBool ((b.acc ^^^ operandMux src b).getLsbD (w - 1)),
      pc := b.pc + 1#pcw, tc := 1, err := 0 }) ∧
    stepDecoded .unknown b = { b with pc := b.pc + 1#pcw, tc := 1, err := 0 } ∧
    (∀ k, stepDecoded (.fail k) b = { b with pc := b.pc + 1#pcw, tc := 1, err := failCode k })

/-- R122, R123, R129: PC moves on by one, modulo 2^PCW, and TC ends at 1, on every step, whatever it decodes to, failing
steps included, at both levels; PC has already moved on when Perform begins. -/
def Obligations.CountersAdvanceOnEveryStep : Prop :=
  (∀ (i : Instr) (s : State), ∃ t, exec i s = .next t ∧
    uint t.pc = (uint s.pc + 1) % 2 ^ Config.PCW ∧ t.tc = 1) ∧
  (∀ (w pcw : Nat) (d : Decoded w) (b : Block w pcw),
    uint (startStep b).pc = (uint b.pc + 1) % 2 ^ pcw ∧ (stepDecoded d b).pc = (startStep b).pc ∧
    (stepDecoded d b).tc = 1) ∧
  (∀ (w pcw : Nat) (line : Line) (b : Block w pcw), lineAdmitted w line = true →
    ∃ c, executeLine line b = .ok c ∧ uint c.pc = (uint b.pc + 1) % 2 ^ pcw ∧ c.tc = 1)

/-- R124: a step whose result is an error writes only PC, TC and err_o; a step whose result is Ok applies all the writes
of its instruction. Both levels: a word's step and a line's step are `stepDecoded`. -/
def Obligations.StepsApplyAllTheirWritesOrFailWithNone : Prop :=
  (∀ (i : Instr) (s : State), ∃ t, exec i s = .next t ∧
    (t.err ≠ 0 → t = { s with pc := s.pc + 1, tc := 1, err := t.err }) ∧
    (t.err = 0 → t = s.withBlock { (perform i.decoded s.toBlock).1 with pc := s.pc + 1, tc := 1, err := 0 })) ∧
  (∀ (w pcw : Nat) (d : Decoded w) (b : Block w pcw),
    ((stepDecoded d b).err ≠ 0 →
      stepDecoded d b = { b with pc := b.pc + 1#pcw, tc := 1, err := (stepDecoded d b).err }) ∧
    ((stepDecoded d b).err = 0 → stepDecoded d b = { (perform d b).1 with pc := b.pc + 1#pcw, tc := 1, err := 0 }))

/-- R25: only add and sub write SIGN, with bit W−1 of the new ACC, which is 1 exactly for a negative value; everything
else leaves it: the other rows, and at level T the unknown opcodes and the failing lines. -/
def Obligations.SignIsWrittenByAddAndSubOnly : Prop :=
  (∀ (i : Instr) (s : State), ∃ t, exec i s = .next t ∧
    (((∃ r, i = .addR r ∨ i = .subR r) ∨ (∃ v, i = .addI v ∨ i = .subI v)) →
      t.sign = BitVec.ofBool (t.acc.getLsbD (Config.W - 1)) ∧ (t.sign = 1#1 ↔ sint t.acc < 0) ∧
      (t.sign = 0#1 ↔ 0 ≤ sint t.acc)) ∧
    (¬((∃ r, i = .addR r ∨ i = .subR r) ∨ (∃ v, i = .addI v ∨ i = .subI v)) → t.sign = s.sign)) ∧
  (∀ (w pcw : Nat) (d : Decoded w) (b : Block w pcw),
    ((∃ src, d = .add src ∨ d = .sub src) →
      (stepDecoded d b).sign = BitVec.ofBool ((stepDecoded d b).acc.getLsbD (w - 1)) ∧
      ((stepDecoded d b).sign = 1#1 ↔ sint (stepDecoded d b).acc < 0) ∧
      ((stepDecoded d b).sign = 0#1 ↔ 0 ≤ sint (stepDecoded d b).acc)) ∧
    (¬(∃ src, d = .add src ∨ d = .sub src) → (stepDecoded d b).sign = b.sign))

/-- From R22: no row but `save Rn` changes Rn, and it stores ACC there. -/
def Obligations.GeneralRegistersAreWrittenBySaveOnly : Prop :=
  ∀ (i : Instr) (s : State), ∃ t, exec i s = .next t ∧
    ∀ q, readReg q t.toBlock = if i = .save q then s.acc else readReg q s.toBlock

/-- R160 (Corner cases) and R237: `save Rn` followed by `add Rn` reads the new Rn, so ACC and SIGN become 0. -/
def Obligations.SaveThenAddOfTheSameRegisterClearsAcc : Prop :=
  ∀ (r : Reg) (s : State), ∃ t u, exec (.save r) s = .next t ∧ exec (.addR r) t = .next u ∧
    u.acc = 0 ∧ u.sign = 0 ∧ readReg r u.toBlock = s.acc ∧ uint u.pc = (uint s.pc + 2) % 2 ^ Config.PCW

/-- R234, R235: the first step after reset leaves PC = 1 and TC = 1, whatever it is; a register read before any write
gives 0. -/
def Obligations.FirstStepAfterReset : Prop :=
  (∀ i : Instr, ∃ t, exec i State.reset = .next t ∧ t.pc = 1 ∧ t.tc = 1) ∧
  (∀ r : Reg, ∃ t, exec (.addR r) State.reset = .next t ∧ t.acc = 0 ∧ t.sign = 0)

/-- R200: the codes of the error kinds, the codes of a step's results on err_o, and that code 4 fits no two-bit value. -/
def Obligations.ErrorKindsHaveTheirCodes : Prop :=
  resultCode .ok = 0 ∧
  (∀ k : FailKind, (failCode k).toNat = (ErrorKind.step k).code) ∧
  (ErrorKind.step .invalidOperand).code = 1 ∧ (ErrorKind.step .unknownRegister).code = 2 ∧
  (ErrorKind.step .malformedInstruction).code = 3 ∧ ErrorKind.invalidEncoding.code = 4 ∧
  (∀ (w pcw : Nat) (b : Block w pcw), b.err.toNat ≠ ErrorKind.invalidEncoding.code)

/-! ### The ALU -/

/-- R162: `add X` and `sub X` have the same effect on every state; their words differ in OPC only, and their spellings
in the opcode only. -/
def Obligations.AddAndSubHaveTheSameEffect : Prop :=
  (∀ (w pcw : Nat) (src : Src w) (b : Block w pcw), stepDecoded (.add src) b = stepDecoded (.sub src) b) ∧
  (∀ (r : Reg) (s : State), exec (.addR r) s = exec (.subR r) s) ∧
  (∀ (v : Word) (s : State), exec (.addI v) s = exec (.subI v) s) ∧
  (∀ (w : Nat) (src : Src w),
    opcOf (ctrlOf (asm (.add src))) = 0b010#3 ∧ opcOf (ctrlOf (asm (.sub src))) = 0b011#3 ∧
    (ctrlOf (asm (.add src))).extractLsb' 0 5 = (ctrlOf (asm (.sub src))).extractLsb' 0 5 ∧
    immOf (asm (.add src)) = immOf (asm (.sub src)) ∧
    disassemble (.add src) = "add ".toList ++ src.spelling ∧ disassemble (.sub src) = "sub ".toList ++ src.spelling)

/-- R163: the laws of the ALU at every width, that adding an operand twice restores ACC, and the sign after an add or a
sub (the effects of the two are the same, R162). -/
def Obligations.LawsOfTheXorAlu : Prop :=
  (∀ (w : Nat) (x y v : BitVec w),
    aluXor (aluXor x v) v = x ∧ aluXor x 0#w = x ∧ aluXor x x = 0#w ∧ aluXor x y = aluXor y x ∧
    aluXor (aluXor x y) v = aluXor x (aluXor y v) ∧
    (1 ≤ w → sint (aluXor x (bitsOf w (-1))) = -sint x - 1) ∧
    (aluXor x v).getLsbD (w - 1) = (x.getLsbD (w - 1) ^^ v.getLsbD (w - 1))) ∧
  (∀ (w pcw : Nat) (src : Src w) (b : Block w pcw),
    (stepDecoded (.add src) (stepDecoded (.add src) b)).acc = b.acc ∧
    (stepDecoded (.sub src) (stepDecoded (.sub src) b)).acc = b.acc ∧
    ((stepDecoded (.add src) b).sign = 1#1 ↔ ¬(sint b.acc < 0 ↔ sint (operandMux src b) < 0)) ∧
    ((stepDecoded (.sub src) b).sign = 1#1 ↔ ¬(sint b.acc < 0 ↔ sint (operandMux src b) < 0)))

/-- R165: the XOR of two in-range integers, read on their infinite two's-complement bit strings, is in range, and the
W-bit XOR of their words stands for it. The first clause says that `intXor` is that reading. -/
def Obligations.XorOfIntegersStaysInRangeAndIsExact : Prop :=
  (∀ (a b : Int) (n : Nat), (Source.intXor a b).testBit n = (a.testBit n ^^ b.testBit n)) ∧
  (∀ (w : Nat) (a b : Int), 1 ≤ w → Codec.InRange w a → Codec.InRange w b →
    Codec.InRange w (Source.intXor a b) ∧ sint (aluXor (bitsOf w a) (bitsOf w b)) = Source.intXor a b)

/-! ### Level B: words -/

/-- R79: what every word decodes to, written by its fields, at every width. -/
def Obligations.DecodeOfEveryWordByItsFields : Prop :=
  ∀ (w : Nat) (s : BitVec 1) (k rs : BitVec 2) (imm : BitVec w),
    decodeWord (fieldWord 0b000#3 s k rs imm) = .mov imm ∧
    decodeWord (fieldWord 0b001#3 s k rs imm) = .save (Reg.ofIndex rs) ∧
    decodeWord (fieldWord 0b010#3 0#1 k rs imm) = .add (.reg (Reg.ofIndex rs)) ∧
    decodeWord (fieldWord 0b010#3 1#1 k rs imm) = .add (.imm imm) ∧
    decodeWord (fieldWord 0b011#3 0#1 k rs imm) = .sub (.reg (Reg.ofIndex rs)) ∧
    decodeWord (fieldWord 0b011#3 1#1 k rs imm) = .sub (.imm imm) ∧
    decodeWord (fieldWord 0b100#3 s 0b00#2 rs imm) = .unknown ∧
    decodeWord (fieldWord 0b100#3 s 0b01#2 rs imm) = .fail .invalidOperand ∧
    decodeWord (fieldWord 0b100#3 s 0b10#2 rs imm) = .fail .unknownRegister ∧
    decodeWord (fieldWord 0b100#3 s 0b11#2 rs imm) = .fail .malformedInstruction ∧
    decodeWord (fieldWord 0b101#3 s k rs imm) = .unknown ∧
    decodeWord (fieldWord 0b110#3 s k rs imm) = .unknown ∧
    decodeWord (fieldWord 0b111#3 s k rs imm) = .unknown ∧
    Reg.ofIndex 0b00#2 = .r1 ∧ Reg.ofIndex 0b01#2 = .r2 ∧ Reg.ofIndex 0b10#2 = .r3 ∧ Reg.ofIndex 0b11#2 = .r4

/-- R82: the canonical word of each decoded instruction, as a number, at every width, and that decoding it gives the
instruction back. -/
def Obligations.DecodeInvertsTheAssembler : Prop :=
  (∀ (w : Nat) (d : Decoded w), decodeWord (asm d) = d) ∧
  (∀ (w : Nat) (imm : BitVec w) (r : Reg),
    uint (asm (.mov imm)) = 0x00 * 2 ^ w + uint imm ∧
    uint (asm (.save (w := w) r)) = (0x20 + uint r.index) * 2 ^ w ∧
    uint (asm (.add (w := w) (.reg r))) = (0x40 + uint r.index) * 2 ^ w ∧
    uint (asm (.add (.imm imm))) = 0x50 * 2 ^ w + uint imm ∧
    uint (asm (.sub (w := w) (.reg r))) = (0x60 + uint r.index) * 2 ^ w ∧
    uint (asm (.sub (.imm imm))) = 0x70 * 2 ^ w + uint imm ∧
    uint (asm (.fail (w := w) .invalidOperand)) = 0x84 * 2 ^ w ∧
    uint (asm (.fail (w := w) .unknownRegister)) = 0x88 * 2 ^ w ∧
    uint (asm (.fail (w := w) .malformedInstruction)) = 0x8C * 2 ^ w ∧
    uint (asm (.unknown (w := w))) = 0xE0 * 2 ^ w) ∧
  (uint Reg.r1.index = 0 ∧ uint Reg.r2.index = 1 ∧ uint Reg.r3.index = 2 ∧ uint Reg.r4.index = 3) ∧
  uint (asm (.add (.imm 3#30))) = 0x1400000003 ∧ uint (asm (.add (.imm 3#4))) = 0x503

/-- R80: words that differ only in fields their OPC ignores decode alike, at every width, and so run alike; the
assembler writes 0 in every ignored field. -/
def Obligations.IgnoredFieldsHaveNoEffect : Prop :=
  (∀ (w : Nat) (s s' : BitVec 1) (k k' rs rs' : BitVec 2) (imm imm' : BitVec w),
    decodeWord (fieldWord 0b000#3 s k rs imm) = decodeWord (fieldWord 0b000#3 s' k' rs' imm) ∧
    decodeWord (fieldWord 0b001#3 s k rs imm) = decodeWord (fieldWord 0b001#3 s' k' rs imm') ∧
    (∀ opc, opc = 0b010#3 ∨ opc = 0b011#3 →
      decodeWord (fieldWord opc 0#1 k rs imm) = decodeWord (fieldWord opc 0#1 k' rs imm') ∧
      decodeWord (fieldWord opc 1#1 k rs imm) = decodeWord (fieldWord opc 1#1 k' rs' imm)) ∧
    decodeWord (fieldWord 0b100#3 s k rs imm) = decodeWord (fieldWord 0b100#3 s' k rs' imm') ∧
    (∀ opc, opc = 0b101#3 ∨ opc = 0b110#3 ∨ opc = 0b111#3 →
      decodeWord (fieldWord opc s k rs imm) = decodeWord (fieldWord opc s' k' rs' imm'))) ∧
  (∀ (a b : IWord Config.W) (s : State), decodeWord a = decodeWord b → exec (decode a) s = exec (decode b) s) ∧
  (∀ (w pcw : Nat) (a a' : IWord w) (b : Block w pcw), decodeWord a = decodeWord a' → stepWord a b = stepWord a' b) ∧
  (∀ (w : Nat) (imm : BitVec w) (r : Reg) (f : FailKind),
    asm (.mov imm) = fieldWord 0b000#3 0 0 0 imm ∧
    asm (.save r) = fieldWord 0b001#3 0 0 r.index 0#w ∧
    asm (.add (.reg r)) = fieldWord 0b010#3 0 0 r.index 0#w ∧
    asm (.add (.imm imm)) = fieldWord 0b010#3 1 0 0 imm ∧
    asm (.sub (.reg r)) = fieldWord 0b011#3 0 0 r.index 0#w ∧
    asm (.sub (.imm imm)) = fieldWord 0b011#3 1 0 0 imm ∧
    asm (.fail f) = fieldWord 0b100#3 0 (failCode f) 0 0#w ∧
    asm .unknown = fieldWord 0b111#3 0 0 0 0#w)

/-- Decode and encode agree on every row of the opcode table, with every operand (from R79, R82). The words that encode
gives the three unknown rows without a canonical word are the model's choice (log entry 12). -/
def Obligations.DecodeInvertsEncodeOnEveryRow : Prop :=
  ∀ i : Instr, decode (encode i) = i

/-- From R79: the decoder by rows of the opcode table and the spec's Decode agree on every word. -/
def Obligations.DecoderByRowsAgreesWithDecode : Prop :=
  ∀ iw : IWord Config.W, (decode iw).decoded = decodeWord iw

/-- INDEX.md, "Reading opcode_table.json": every word matches exactly one row of the table, and it is the row of the
instruction it decodes to. -/
def Obligations.EveryWordMatchesExactlyItsRow : Prop :=
  ∀ iw : IWord Config.W,
    (opcodeTable.filter fun row => row.holds (ctrlOf iw)).map Row.mnemonic = [(decode iw).mnemonic]

/-- Words written out in spec/95_test_vectors.md, canonical and not, and what they stand for (a sanity statement). -/
def Obligations.WordsOfTheTestVectorsDecode : Prop :=
  decodeTableWord 40 0x0000000005 = some (.mov 5#30) ∧
  decodeTableWord 40 0x07FFFFFFFF = some (.mov (-1)) ∧
  decodeTableWord 40 0x0840000000 = some (.save .r2) ∧
  decodeTableWord 40 0x10C0000000 = some (.addR .r4) ∧
  decodeTableWord 40 0x1400000003 = some (.addI 3#30) ∧
  decodeTableWord 40 0x1800000000 = some (.subR .r1) ∧
  decodeTableWord 40 0x1C3FFFFFF8 = some (.subI (-8)) ∧
  decodeTableWord 40 0x2100000000 = some .errInvalidOperand ∧
  decodeTableWord 40 0x2200000000 = some .errUnknownRegister ∧
  decodeTableWord 40 0x2300000000 = some .errMalformedInstruction ∧
  decodeTableWord 40 0x3800000000 = some .unkOpc111 ∧
  decodeTableWord 40 0x3FFFFFFFFF = some .unkOpc111

/-! ### Level T: lines -/

/-- R83: a line that TextDecode does not refuse does what its assembled word does, at every width, and on the machine. -/
def Obligations.LineAndItsAssembledWordBehaveAlike : Prop :=
  (∀ (w pcw : Nat) (line : Line) (d : Decoded w) (b : Block w pcw), textDecode w line = .ok d →
    executeLine line b = .ok (stepWord (asm d) b)) ∧
  (∀ (line : Line) (d : Decoded Config.W) (s : State), textDecode Config.W line = .ok d →
    takeOffer (.line line) s = takeOffer (.word (asm d)) s)

/-- R62: the whitespace characters, and that exactly the lines with a character outside the set are refused for it. -/
def Obligations.CharacterSetOfALine : Prop :=
  (∀ c : Char, isWhitespace c = true ↔ c.toNat ∈ [0x09, 0x0A, 0x0B, 0x0C, 0x0D, 0x20]) ∧
  (∀ (w : Nat) (line : Line), textDecode w line = .error .charset ↔
    ∃ c ∈ line, 0x80 ≤ c.toNat ∨ c.toNat ≤ 0x08 ∨ (0x0E ≤ c.toNat ∧ c.toNat ≤ 0x1F) ∨ c.toNat = 0x7F) ∧
  (∀ (w pcw : Nat) (line : Line) (b : Block w pcw), executeLine line b = .error .charset ↔
    ∃ c ∈ line, 0x80 ≤ c.toNat ∨ c.toNat ≤ 0x08 ∨ (0x0E ≤ c.toNat ∧ c.toNat ≤ 0x1F) ∨ c.toNat = 0x7F)

/-- R63: Tokenize gives the maximal runs of non-whitespace characters, in order. The two clauses fix it on every line. -/
def Obligations.TokenizeTakesTheMaximalRuns : Prop :=
  (∀ gap : Line, (∀ c ∈ gap, isWhitespace c = true) → tokenize gap = []) ∧
  (∀ gap token rest : Line, (∀ c ∈ gap, isWhitespace c = true) → token ≠ [] →
    (∀ c ∈ token, isWhitespace c = false) → (∀ c ∈ rest.head?, isWhitespace c = true) →
    tokenize (gap ++ token ++ rest) = token :: tokenize rest)

/-- R66: a literal is an optional sign and one or more decimal digits, and its value is that decimal number. -/
def Obligations.LiteralsAreSignedDecimalNumbers : Prop :=
  ∀ (t : Token) (v : Int), literalValue t = some v ↔
    ∃ sgn ds : Token, t = sgn ++ ds ∧ (sgn = [] ∨ sgn = ['+'] ∨ sgn = ['-']) ∧ ds ≠ [] ∧
      (∀ c ∈ ds, 0x30 ≤ c.toNat ∧ c.toNat ≤ 0x39) ∧
      v = (if sgn = ['-'] then -1 else 1) * ((Nat.ofDigits (10 : Nat) (ds.reverse.map fun c => c.toNat - 0x30) : Nat) : Int)

/-- R64, R65: opcodes and register names are matched exactly, and nothing else is one. -/
def Obligations.NamesAreMatchedExactly : Prop :=
  (∀ t : Token, (regNamed t = some .r1 ↔ t = "R1".toList) ∧ (regNamed t = some .r2 ↔ t = "R2".toList) ∧
    (regNamed t = some .r3 ↔ t = "R3".toList) ∧ (regNamed t = some .r4 ↔ t = "R4".toList)) ∧
  (∀ t : Token, (opcodeOf t = some .mov ↔ t = "mov".toList) ∧ (opcodeOf t = some .save ↔ t = "save".toList) ∧
    (opcodeOf t = some .add ↔ t = "add".toList) ∧ (opcodeOf t = some .sub ↔ t = "sub".toList)) ∧
  (∀ (w : Nat) (line : Line) (op : Token) (rest : List Token), line.all inCharset = true →
    tokenize line = op :: rest → (textDecode w line = .ok .unknown ↔ ¬isRecognized op))

/-- R67: the four classes of an operand token, and that an Unsettled token is refused wherever a literal is possible. -/
def Obligations.ClassesOfAnOperandToken : Prop :=
  ∀ (w : Nat) (t : Token),
    (∀ v, classLit w t = .lit v ↔ literalValue t = some v ∧ Codec.InRange w v) ∧
    (classLit w t = .outOfRange ↔ ∃ v, literalValue t = some v ∧ ¬Codec.InRange w v) ∧
    (classLit w t = .unsettled ↔ literalValue t = none ∧ '_' ∈ t) ∧
    (classLit w t = .notLit ↔ literalValue t = none ∧ '_' ∉ t) ∧
    (classLit w t = .unsettled → ∀ (line : Line) (op : Token) (rest : List Token), line.all inCharset = true →
      tokenize line = op :: t :: rest → takesLiteral op → textDecode w line = .error .unsettledToken)

/-- R68: a line with a literal operand is refused for its range exactly when the literal does not fit W bits; the ranges
at W = 30 and W = 4. -/
def Obligations.OutOfRangeLiteralsAreRefused : Prop :=
  (∀ (w : Nat) (line : Line) (op t : Token) (rest : List Token) (v : Int), line.all inCharset = true →
    tokenize line = op :: t :: rest → takesLiteral op → literalValue t = some v →
    (textDecode w line = .error .literalRange ↔ ¬(-2 ^ (w - 1) ≤ v ∧ v < 2 ^ (w - 1)))) ∧
  (∀ v : Int, Codec.InRange 30 v ↔ -536870912 ≤ v ∧ v ≤ 536870911) ∧
  (∀ v : Int, Codec.InRange 4 v ↔ -8 ≤ v ∧ v ≤ 7)

/-- R78: the field of an in-range literal stands for exactly that integer, in a `mov` and in an immediate `add` or `sub`. -/
def Obligations.ImmediateFieldHoldsTheLiteral : Prop :=
  ∀ (w : Nat) (t : Token) (v : Int), 1 ≤ w → classLit w t = .lit v →
    decodeOperand w .mov t = .ok (.mov (bitsOf w v)) ∧ decodeOperand w .add t = .ok (.add (.imm (bitsOf w v))) ∧
    decodeOperand w .sub t = .ok (.sub (.imm (bitsOf w v))) ∧
    immOf (asm (.mov (bitsOf w v))) = bitsOf w v ∧ immOf (asm (.add (.imm (bitsOf w v)))) = bitsOf w v ∧
    immOf (asm (.sub (.imm (bitsOf w v)))) = bitsOf w v ∧ sint (bitsOf w v) = v

/-- R73: operand tokens after the first are ignored. -/
def Obligations.OperandTokensAfterTheFirstAreIgnored : Prop :=
  ∀ (w : Nat) (line line' : Line) (op t : Token) (rest rest' : List Token),
    line.all inCharset = true → line'.all inCharset = true → tokenize line = op :: t :: rest →
    tokenize line' = op :: t :: rest' → textDecode w line = textDecode w line'

/-- R74 (and R180 at level T): a line whose opcode is not recognized decodes to Unknown, whatever its operands, and does
only the common step. -/
def Obligations.UnrecognizedLineDoesOnlyTheCommonStep : Prop :=
  ∀ (w pcw : Nat) (line : Line) (op : Token) (rest : List Token) (b : Block w pcw), line.all inCharset = true →
    tokenize line = op :: rest → ¬isRecognized op →
    textDecode w line = .ok .unknown ∧
    executeLine line b = .ok { b with pc := b.pc + 1#pcw, tc := 1, err := 0 }

/-- R182: exactly which lines fail with InvalidOperand. -/
def Obligations.InvalidOperandExactly : Prop :=
  ∀ (w pcw : Nat) (line : Line) (b : Block w pcw), (∃ c, executeLine line b = .ok c ∧ c.err = 1#2) ↔
    (line.all inCharset = true ∧ ∃ op tok rest, tokenize line = op :: tok :: rest ∧
      classLit w tok = .notLit ∧
      (op = "mov".toList ∨ ((op = "add".toList ∨ op = "sub".toList) ∧
        tok ∉ ["R1".toList, "R2".toList, "R3".toList, "R4".toList])))

/-- R183: exactly which lines fail with UnknownRegister. -/
def Obligations.UnknownRegisterExactly : Prop :=
  ∀ (w pcw : Nat) (line : Line) (b : Block w pcw), (∃ c, executeLine line b = .ok c ∧ c.err = 2#2) ↔
    (line.all inCharset = true ∧ ∃ tok rest, tokenize line = "save".toList :: tok :: rest ∧
      tok ∉ ["R1".toList, "R2".toList, "R3".toList, "R4".toList])

/-- R184: exactly which lines fail with MalformedInstruction. -/
def Obligations.MalformedInstructionExactly : Prop :=
  ∀ (w pcw : Nat) (line : Line) (b : Block w pcw), (∃ c, executeLine line b = .ok c ∧ c.err = 3#2) ↔
    (line.all inCharset = true ∧ (tokenize line = [] ∨ ∃ op, tokenize line = [op] ∧ isRecognized op))

/-- From R86: reading a disassembly spelling back gives the instruction for the four opcodes, and an unknown opcode for
`.err` and `.unk`. -/
def Obligations.DisassemblyReadsBack : Prop :=
  ∀ (w : Nat) (d : Decoded w), 1 ≤ w →
    textDecode w (disassemble d) =
      .ok (match d with
        | .mov imm => .mov imm
        | .save r => .save r
        | .add src => .add src
        | .sub src => .sub src
        | .unknown => .unknown
        | .fail _ => .unknown)

/-! ### The word codec -/

/-- R107: round trip and width, for every width and every value in range. -/
def Obligations.CodecRoundTripAndWidth : Prop :=
  ∀ (width : Nat) (v : Int), 1 ≤ width → -2 ^ (width - 1) ≤ v → v < 2 ^ (width - 1) →
    ∃ bits, Codec.encode v width = some bits ∧ Codec.decode bits = .ok v ∧ bits.length = width

/-- R108: the rendered string of a register is its bits, most significant first, and decodes to its signed value. -/
def Obligations.RenderedRegisterIsItsBits : Prop :=
  ∀ (w : Nat) (x : BitVec w), 1 ≤ w →
    Codec.encode (sint x) w = some (bitStringOf x) ∧ Codec.decode (bitStringOf x) = .ok (sint x)

/-- From R103: encode is refused exactly outside its precondition. -/
def Obligations.EncodeIsRefusedExactlyOutsideItsRange : Prop :=
  ∀ (v : Int) (width : Nat), Codec.encode v width = none ↔ (width = 0 ∨ v < -2 ^ (width - 1) ∨ 2 ^ (width - 1) ≤ v)

/-- R106: exactly the empty and the non-binary strings raise InvalidEncoding, and no step of the block ever does. -/
def Obligations.MalformedBitStringsAreRejected : Prop :=
  (∀ bits : Codec.BitString, Codec.decode bits = .error .invalidEncoding ↔
    (bits = [] ∨ ∃ c ∈ bits, c ≠ '0' ∧ c ≠ '1')) ∧
  (∀ (w pcw : Nat) (b : Block w pcw), b.err.toNat ≠ ErrorKind.invalidEncoding.code)

/-- From R105, R109 and R107: decode of a binary string of length n is in the n-bit range, and encode at width n gives
the string back. -/
def Obligations.DecodeIsInRangeAndInvertedByEncode : Prop :=
  ∀ bits : Codec.BitString, bits ≠ [] → (∀ c ∈ bits, c = '0' ∨ c = '1') →
    ∃ v, Codec.decode bits = .ok v ∧ -2 ^ (bits.length - 1) ≤ v ∧ v < 2 ^ (bits.length - 1) ∧
      Codec.encode v bits.length = some bits

/-- From R214: the content of the output record of any block. -/
def Obligations.OutputRecordShowsTheState : Prop :=
  ∀ (w pcw : Nat) (text : Line) (b : Block w pcw), 1 ≤ w → outputRecord text (snapshot b) = some {
    text := text, acc := bitStringOf b.acc, r1 := bitStringOf b.r1, r2 := bitStringOf b.r2, r3 := bitStringOf b.r3,
    r4 := bitStringOf b.r4, ins := text, pc := uint b.pc, tc := uint b.tc, sign := uint b.sign }

/-! ### Runs, invariants, refinement -/

/-- R28: at every step boundary of a run, PC is the number of steps since the last reset modulo 2^PCW; inside a step it
already counts the current one. -/
def Obligations.PcCountsTheStepsSinceReset : Prop :=
  (∀ (w pcw : Nat) (offers : List (Offer w)), offers.all offerAdmitted = true →
    ∃ c, runProgram pcw .skip offers = .ok c ∧ uint c.pc = stepsSinceReset offers % 2 ^ pcw ∧
      uint (startStep c).pc = (stepsSinceReset offers + 1) % 2 ^ pcw)

/-- From R28, one step at a time: if PC is n modulo 2^PCW, then after an answered offer it is n + 1 modulo 2^PCW for a
word or a line and 0 for a reset; on the block from every state, and on the machine's step whenever something is offered
(the supply is the model's, log entry 3). -/
def Obligations.EveryAnsweredOfferKeepsThePcCount : Prop :=
  (∀ (w pcw n : Nat) (o : Offer w) (b c : Block w pcw), uint b.pc = n % 2 ^ pcw → b.take o = .ok c →
    uint c.pc = (if isStepOffer o then n + 1 else 0) % 2 ^ pcw) ∧
  (∀ (n : Nat) (o : Offer Config.W) (rest : List (Offer Config.W)) (s t : State), s.supply = o :: rest →
    uint s.pc = n % 2 ^ Config.PCW → step s = .next t →
    uint t.pc = (if isStepOffer o then n + 1 else 0) % 2 ^ Config.PCW)

/-- The model's supply, kept across a reset, and policy (DESIGN CHOICE, log entries 3, 5 and 10): running step once per
offer is the host's run under `skip`, and a refused line ends both (DEDUCED, log entry 6). -/
def Obligations.CoreRunIsTheHostsRunUnderSkip : Prop :=
  ∀ (offers : List (Offer Config.W)) (s : State), s.supply = [] →
    (∀ b, hostRun .skip offers s.toBlock = .ok b → core.run offers.length (s.offering offers) = .next (s.withBlock b)) ∧
    (∀ reason, hostRun .skip offers s.toBlock = .error reason →
      core.run offers.length (s.offering offers) = .refused (.lineRefused reason))

/-- From R209, R219: a run under `halt` is the run under `skip` of a first part of the offers; it leaves some out only
after an Err, and no earlier step of it was one. -/
def Obligations.HaltRunIsASkipRunUpToTheFirstError : Prop :=
  ∀ (w pcw : Nat) (offers : List (Offer w)) (b : Block w pcw), ∃ done left, offers = done ++ left ∧
    hostRun .halt offers b = hostRun .skip done b ∧
    (left ≠ [] → ∃ c, hostRun .skip done b = .ok c ∧ c.err ≠ 0#2) ∧
    (∀ pre o post c, done = pre ++ o :: post → pre ≠ [] → hostRun .skip pre b = .ok c → c.err = 0#2)

/-- From R79, R121, R180, R181: a run over resets, words and lines that are not refused never stops, under either policy
and from every state; on the machine, every such offer is answered with a next state. -/
def Obligations.RunsOverAdmittedOffersComplete : Prop :=
  (∀ (w pcw : Nat) (policy : Config.OnError) (offers : List (Offer w)) (b : Block w pcw),
    offers.all offerAdmitted = true → ∃ c, hostRun policy offers b = .ok c) ∧
  (∀ (o : Offer Config.W) (s : State), offerAdmitted o = true → Completes (takeOffer o s))

/-- From R121: a step is refused exactly when the next offer is a line that TextDecode refuses, for that reason. That the
machine answers such a line with `lineRefused` is the model's reading of R121 (DEDUCED, log entry 6), and the supply its
choice (log entry 3). -/
def Obligations.StepIsRefusedOnlyForARefusedLine : Prop :=
  ∀ (s : State) (r : Refusal), step s = .refused r ↔
    ∃ text rest reason, s.supply = .line text :: rest ∧ textDecode Config.W text = .error reason ∧
      r = .lineRefused reason

/-- From R29: the state after reset meets the invariant. -/
def Obligations.ResetMeetsTcMarksReset : Prop := TcMarksReset State.reset.toBlock

/-- From R29: TC = 0 only in the state a reset leaves, and every step from every state that meets this keeps it. -/
def Obligations.EveryStepKeepsTcMarksReset : Prop :=
  ∀ s t : State, TcMarksReset s.toBlock → step s = .next t → TcMarksReset t.toBlock

/-- From R38 and R33: the engine as created agrees with the block after reset. -/
def Obligations.InitialSourceEngineAgreesWithReset : Prop :=
  ∀ w pcw : Nat, Source.Agrees Source.Engine.initial (Block.reset w pcw)

/-- From R38: on every admitted program, from every state that agrees with the source's unbounded engine, the W-bit
block runs to a state that agrees with it. The engine is the model's reading of the source (log entry 14). -/
def Obligations.BlockRefinesTheUnboundedSourceEngine : Prop :=
  ∀ (w pcw : Nat) (program : List Line) (u : Source.Engine) (b : Block w pcw), 1 ≤ w → Source.Agrees u b →
    programAdmitted w program = true →
    ∃ c, hostRun .skip (program.map .line) b = .ok c ∧
      Source.Agrees (program.foldl (fun e line => e.execute line) u) c

/-- From the "read by" column of R20, and R26: no run lets SIGN, PC, TC or err_o reach ACC or a general register, or the
result of a step. -/
def Obligations.CountersAndSignNeverReachTheData : Prop :=
  ∀ (w pcw : Nat) (policy : Config.OnError) (offers : List (Offer w)) (b c b' : Block w pcw), SameData b c →
    hostRun policy offers b = .ok b' →
    ∃ c', hostRun policy offers c = .ok c' ∧ SameData b' c' ∧ (offers ≠ [] → b'.err = c'.err ∧ b'.tc = c'.tc)
end

