-- ==== Sys2Proof/Laws/Decode.lean ====
section
/-! SUPPORT. What the fields of a word and the register indices are, said once, for every width. -/

namespace Sys2Proof

@[simp] theorem ctrlOf_wordOf {w : Nat} (ctrl : BitVec 8) (imm : BitVec w) : ctrlOf (wordOf ctrl imm) = ctrl :=
  BitVec.extractLsb'_append_eq_left

@[simp] theorem immOf_wordOf {w : Nat} (ctrl : BitVec 8) (imm : BitVec w) : immOf (wordOf ctrl imm) = imm :=
  BitVec.extractLsb'_append_eq_right

/-- A word is its two fields (R75). -/
@[simp] theorem wordOf_ctrlOf_immOf {w : Nat} (iw : IWord w) : wordOf (ctrlOf iw) (immOf iw) = iw := by
  simp [wordOf, ctrlOf, immOf]

@[simp] theorem Reg.ofIndex_index (r : Reg) : Reg.ofIndex r.index = r := by cases r <;> rfl

@[simp] theorem Reg.index_ofIndex (rs : BitVec 2) : (Reg.ofIndex rs).index = rs := by
  revert rs
  decide

@[simp] theorem regNamed_name (r : Reg) : regNamed r.name = some r := by cases r <;> rfl

end Sys2Proof
end

