-- ==== Sys2Proof/Laws/State.lean ====
section
/-! SUPPORT. One lemma per field per update of the state, so that no later proof unfolds a record update. -/

namespace Sys2Proof.Machine

variable {w pcw : Nat}

/-! ### `writeAcc` -/

@[simp] theorem writeAcc_acc (v : BitVec w) (b : Block w pcw) : (writeAcc v b).acc = v := rfl
@[simp] theorem writeAcc_r1 (v : BitVec w) (b : Block w pcw) : (writeAcc v b).r1 = b.r1 := rfl
@[simp] theorem writeAcc_r2 (v : BitVec w) (b : Block w pcw) : (writeAcc v b).r2 = b.r2 := rfl
@[simp] theorem writeAcc_r3 (v : BitVec w) (b : Block w pcw) : (writeAcc v b).r3 = b.r3 := rfl
@[simp] theorem writeAcc_r4 (v : BitVec w) (b : Block w pcw) : (writeAcc v b).r4 = b.r4 := rfl
@[simp] theorem writeAcc_sign (v : BitVec w) (b : Block w pcw) : (writeAcc v b).sign = b.sign := rfl
@[simp] theorem writeAcc_pc (v : BitVec w) (b : Block w pcw) : (writeAcc v b).pc = b.pc := rfl
@[simp] theorem writeAcc_tc (v : BitVec w) (b : Block w pcw) : (writeAcc v b).tc = b.tc := rfl
@[simp] theorem writeAcc_err (v : BitVec w) (b : Block w pcw) : (writeAcc v b).err = b.err := rfl

/-! ### `startStep` -/

@[simp] theorem startStep_acc (b : Block w pcw) : (startStep b).acc = b.acc := rfl
@[simp] theorem startStep_r1 (b : Block w pcw) : (startStep b).r1 = b.r1 := rfl
@[simp] theorem startStep_r2 (b : Block w pcw) : (startStep b).r2 = b.r2 := rfl
@[simp] theorem startStep_r3 (b : Block w pcw) : (startStep b).r3 = b.r3 := rfl
@[simp] theorem startStep_r4 (b : Block w pcw) : (startStep b).r4 = b.r4 := rfl
@[simp] theorem startStep_sign (b : Block w pcw) : (startStep b).sign = b.sign := rfl
@[simp] theorem startStep_pc (b : Block w pcw) : (startStep b).pc = nextPc b.pc := rfl
@[simp] theorem startStep_tc (b : Block w pcw) : (startStep b).tc = 0#1 := rfl
@[simp] theorem startStep_err (b : Block w pcw) : (startStep b).err = b.err := rfl

/-! ### `finishStep` -/

@[simp] theorem finishStep_acc (r : StepResult) (b : Block w pcw) : (finishStep r b).acc = b.acc := rfl
@[simp] theorem finishStep_r1 (r : StepResult) (b : Block w pcw) : (finishStep r b).r1 = b.r1 := rfl
@[simp] theorem finishStep_r2 (r : StepResult) (b : Block w pcw) : (finishStep r b).r2 = b.r2 := rfl
@[simp] theorem finishStep_r3 (r : StepResult) (b : Block w pcw) : (finishStep r b).r3 = b.r3 := rfl
@[simp] theorem finishStep_r4 (r : StepResult) (b : Block w pcw) : (finishStep r b).r4 = b.r4 := rfl
@[simp] theorem finishStep_sign (r : StepResult) (b : Block w pcw) : (finishStep r b).sign = b.sign := rfl
@[simp] theorem finishStep_pc (r : StepResult) (b : Block w pcw) : (finishStep r b).pc = b.pc := rfl
@[simp] theorem finishStep_tc (r : StepResult) (b : Block w pcw) : (finishStep r b).tc = 1#1 := rfl
@[simp] theorem finishStep_err (r : StepResult) (b : Block w pcw) : (finishStep r b).err = resultCode r := rfl

/-! ### `xorIntoAcc` -/

@[simp] theorem xorIntoAcc_acc (src : Src w) (b : Block w pcw) : (xorIntoAcc src b).acc = aluXor b.acc (operandMux src b) := rfl
@[simp] theorem xorIntoAcc_r1 (src : Src w) (b : Block w pcw) : (xorIntoAcc src b).r1 = b.r1 := rfl
@[simp] theorem xorIntoAcc_r2 (src : Src w) (b : Block w pcw) : (xorIntoAcc src b).r2 = b.r2 := rfl
@[simp] theorem xorIntoAcc_r3 (src : Src w) (b : Block w pcw) : (xorIntoAcc src b).r3 = b.r3 := rfl
@[simp] theorem xorIntoAcc_r4 (src : Src w) (b : Block w pcw) : (xorIntoAcc src b).r4 = b.r4 := rfl
@[simp] theorem xorIntoAcc_sign (src : Src w) (b : Block w pcw) : (xorIntoAcc src b).sign = signOf (aluXor b.acc (operandMux src b)) := rfl
@[simp] theorem xorIntoAcc_pc (src : Src w) (b : Block w pcw) : (xorIntoAcc src b).pc = b.pc := rfl
@[simp] theorem xorIntoAcc_tc (src : Src w) (b : Block w pcw) : (xorIntoAcc src b).tc = b.tc := rfl
@[simp] theorem xorIntoAcc_err (src : Src w) (b : Block w pcw) : (xorIntoAcc src b).err = b.err := rfl

/-! ### `writeReg` and `saveAcc` -/

@[simp] theorem writeReg_acc (r : Reg) (v : BitVec w) (b : Block w pcw) : (writeReg r v b).acc = b.acc := by cases r <;> rfl
@[simp] theorem saveAcc_acc (r : Reg) (b : Block w pcw) : (saveAcc r b).acc = b.acc := writeReg_acc r b.acc b
@[simp] theorem writeReg_sign (r : Reg) (v : BitVec w) (b : Block w pcw) : (writeReg r v b).sign = b.sign := by cases r <;> rfl
@[simp] theorem saveAcc_sign (r : Reg) (b : Block w pcw) : (saveAcc r b).sign = b.sign := writeReg_sign r b.acc b
@[simp] theorem writeReg_pc (r : Reg) (v : BitVec w) (b : Block w pcw) : (writeReg r v b).pc = b.pc := by cases r <;> rfl
@[simp] theorem saveAcc_pc (r : Reg) (b : Block w pcw) : (saveAcc r b).pc = b.pc := writeReg_pc r b.acc b
@[simp] theorem writeReg_tc (r : Reg) (v : BitVec w) (b : Block w pcw) : (writeReg r v b).tc = b.tc := by cases r <;> rfl
@[simp] theorem saveAcc_tc (r : Reg) (b : Block w pcw) : (saveAcc r b).tc = b.tc := writeReg_tc r b.acc b
@[simp] theorem writeReg_err (r : Reg) (v : BitVec w) (b : Block w pcw) : (writeReg r v b).err = b.err := by cases r <;> rfl
@[simp] theorem saveAcc_err (r : Reg) (b : Block w pcw) : (saveAcc r b).err = b.err := writeReg_err r b.acc b

@[simp] theorem readReg_writeReg (r q : Reg) (v : BitVec w) (b : Block w pcw) :
    readReg q (writeReg r v b) = if q = r then v else readReg q b := by
  cases r <;> cases q <;> rfl

@[simp] theorem readReg_saveAcc (r q : Reg) (b : Block w pcw) :
    readReg q (saveAcc r b) = if q = r then b.acc else readReg q b := readReg_writeReg r q b.acc b

/-! ### Reading a register after an update that leaves the registers alone -/

@[simp] theorem readReg_writeAcc (q : Reg) (v : BitVec w) (b : Block w pcw) : readReg q (writeAcc v b) = readReg q b := by cases q <;> rfl
@[simp] theorem readReg_startStep (q : Reg) (b : Block w pcw) : readReg q (startStep b) = readReg q b := by cases q <;> rfl
@[simp] theorem readReg_finishStep (q : Reg) (r : StepResult) (b : Block w pcw) : readReg q (finishStep r b) = readReg q b := by cases q <;> rfl
@[simp] theorem readReg_xorIntoAcc (q : Reg) (src : Src w) (b : Block w pcw) : readReg q (xorIntoAcc src b) = readReg q b := by cases q <;> rfl

/-! ### Reset -/

@[simp] theorem reset_acc : (Block.reset w pcw).acc = 0#w := rfl
@[simp] theorem reset_r1 : (Block.reset w pcw).r1 = 0#w := rfl
@[simp] theorem reset_r2 : (Block.reset w pcw).r2 = 0#w := rfl
@[simp] theorem reset_r3 : (Block.reset w pcw).r3 = 0#w := rfl
@[simp] theorem reset_r4 : (Block.reset w pcw).r4 = 0#w := rfl
@[simp] theorem reset_sign : (Block.reset w pcw).sign = 0#1 := rfl
@[simp] theorem reset_pc : (Block.reset w pcw).pc = 0#pcw := rfl
@[simp] theorem reset_tc : (Block.reset w pcw).tc = 0#1 := rfl
@[simp] theorem reset_err : (Block.reset w pcw).err = 0#2 := rfl
@[simp] theorem readReg_reset (q : Reg) : readReg q (Block.reset w pcw) = 0#w := by cases q <;> rfl

/-! ### The machine's state around its block -/

@[simp] theorem withBlock_toBlock (s : State) (b : Block Config.W Config.PCW) : (s.withBlock b).toBlock = b := rfl
@[simp] theorem withBlock_supply (s : State) (b : Block Config.W Config.PCW) : (s.withBlock b).supply = s.supply := rfl
@[simp] theorem withBlock_withBlock (s : State) (b c : Block Config.W Config.PCW) : (s.withBlock b).withBlock c = s.withBlock c := rfl
@[simp] theorem withBlock_self (s : State) : s.withBlock s.toBlock = s := rfl
@[simp] theorem state_reset_toBlock : State.reset.toBlock = Block.reset Config.W Config.PCW := rfl
@[simp] theorem state_reset_supply : State.reset.supply = [] := rfl
@[simp] theorem offering_toBlock (s : State) (offers : List (Offer Config.W)) : (s.offering offers).toBlock = s.toBlock := rfl
@[simp] theorem offering_supply (s : State) (offers : List (Offer Config.W)) : (s.offering offers).supply = s.supply ++ offers := rfl
@[simp] theorem withFetchWord_toBlock (s : State) (nbits n : Nat) : (s.withFetchWord nbits n).toBlock = s.toBlock := rfl
@[simp] theorem withFetchWord_supply (s : State) (nbits n : Nat) : (s.withFetchWord nbits n).supply = .word (portWord nbits n) :: s.supply := rfl

end Sys2Proof.Machine
end

