-- ==== Sys2Proof/Laws/Ops.lean ====
section
/-! SUPPORT. For each shared operation, one lemma that says all it can do; the provers cite these instead of unfolding. -/

namespace Sys2Proof.Machine

variable {w pcw : Nat}

/-- The increment modulo `2^PCW` of R27 is the addition of bit vectors. -/
theorem nextPc_eq (pc : BitVec pcw) : nextPc pc = pc + 1#pcw := by
  apply BitVec.eq_of_toNat_eq
  have h : ((pc.toNat : Int) + 1) = ((pc.toNat + 1 : Nat) : Int) := by omega
  simp only [nextPc, uint, bitsOf, h, BitVec.ofInt_natCast, BitVec.toNat_add, BitVec.toNat_ofNat, Nat.add_mod_mod]

/-- The increment as a number (R27). -/
theorem uint_nextPc (pc : BitVec pcw) : uint (nextPc pc) = (uint pc + 1) % 2 ^ pcw := by
  simp only [nextPc_eq, uint, BitVec.toNat_add, BitVec.toNat_ofNat, Nat.add_mod_mod]

/-- Bit `w − 1` is the sign bit (R12, R128). -/
theorem signOf_eq_msb (x : BitVec w) : signOf x = BitVec.ofBool x.msb := by
  rw [signOf, BitVec.msb_eq_getLsbD_last]

/-- SIGN is 1 exactly for a negative result (R25). -/
theorem signOf_eq_one_iff (x : BitVec w) : signOf x = 1#1 ↔ sint x < 0 := by
  rw [signOf_eq_msb, BitVec.msb_eq_toInt]
  by_cases h : x.toInt < 0 <;> simp [h]

/-- What the XOR into the accumulator leaves (R160). -/
theorem xorIntoAcc_eq (src : Src w) (b : Block w pcw) :
    xorIntoAcc src b =
      { b with acc := b.acc ^^^ operandMux src b, sign := BitVec.ofBool (b.acc ^^^ operandMux src b).msb } := by
  simp only [xorIntoAcc, aluXor, signOf_eq_msb]

/-- The operand is read before any write of its step, and the skeleton does not touch it (R126). -/
@[simp] theorem operandMux_startStep (src : Src w) (b : Block w pcw) :
    operandMux src (startStep b) = operandMux src b := by
  cases src with
  | reg r => exact readReg_startStep r b
  | imm v => rfl

/-- The skeleton alone (R180). -/
theorem finishStep_startStep (r : StepResult) (b : Block w pcw) :
    finishStep r (startStep b) = { b with pc := nextPc b.pc, tc := 1#1, err := resultCode r } := rfl

/-- A failing step writes PC, TC and `err_o` and nothing else (R124, R206). -/
theorem raiseError_eq (k : FailKind) (b : Block w pcw) :
    raiseError k b = { b with pc := nextPc b.pc, tc := 1#1, err := failCode k } := rfl

@[simp] theorem resultCode_ok : resultCode .ok = 0#2 := rfl

@[simp] theorem resultCode_err (k : FailKind) : resultCode (.err k) = failCode k := rfl

/-- No error kind has the code of success (R200). -/
theorem failCode_ne_zero (k : FailKind) : failCode k ≠ 0#2 := by cases k <;> decide

end Sys2Proof.Machine
end

