-- ==== Sys2Proof/Laws/PerInstr.lean ====
section
/-! SUPPORT. The family `operandsInRange`: every instruction's operands are those R70 gives it, so that no statement
about instructions needs well-formedness as a hypothesis. One lemma per constructor. -/

namespace Sys2Proof.Laws.operandsInRange

/-- The instruction passes its well-formedness check. -/
def Statement (i : Instr) : Prop := i.wellFormed = true

/-- A register number is in 1..4 (R70). -/
theorem reg_wellFormed (r : Reg) : (Src.reg (w := Config.W) r).wellFormed = true := by cases r <;> decide

/-- A W-bit immediate's value is in the range of R68. -/
theorem imm_wellFormed (v : Word) : (Src.imm v).wellFormed = true := by
  have hlo := v.le_toInt
  have hhi := v.toInt_lt
  simp only [Src.wellFormed, Codec.InRange, decide_eq_true_eq]
  exact ⟨hlo, hhi⟩

theorem mov (imm : Word) : Statement (.mov imm) := imm_wellFormed imm
theorem save (r : Reg) : Statement (.save r) := reg_wellFormed r
theorem addR (r : Reg) : Statement (.addR r) := reg_wellFormed r
theorem addI (imm : Word) : Statement (.addI imm) := imm_wellFormed imm
theorem subR (r : Reg) : Statement (.subR r) := reg_wellFormed r
theorem subI (imm : Word) : Statement (.subI imm) := imm_wellFormed imm
theorem errInvalidOperand : Statement .errInvalidOperand := rfl
theorem errUnknownRegister : Statement .errUnknownRegister := rfl
theorem errMalformedInstruction : Statement .errMalformedInstruction := rfl
theorem unkOpc100 : Statement .unkOpc100 := rfl
theorem unkOpc101 : Statement .unkOpc101 := rfl
theorem unkOpc110 : Statement .unkOpc110 := rfl
theorem unkOpc111 : Statement .unkOpc111 := rfl

end Sys2Proof.Laws.operandsInRange
end

