-- ==== Sys2Proof/Laws/Step.lean ====
section
/-! SUPPORT. What an offer and a step can do, said once: the case analyses the provers cite. -/

namespace Sys2Proof.Machine

variable {w pcw : Nat}

/-- What the decoded step is, for each decoded instruction (R120). -/
theorem stepDecoded_eq (d : Decoded w) (b : Block w pcw) :
    stepDecoded d b =
      match d with
      | .mov imm => finishStep .ok (writeAcc imm (startStep b))
      | .save r => finishStep .ok (saveAcc r (startStep b))
      | .add src => finishStep .ok (xorIntoAcc src (startStep b))
      | .sub src => finishStep .ok (xorIntoAcc src (startStep b))
      | .unknown => finishStep .ok (startStep b)
      | .fail k => raiseError k b := by
  cases d <;> rfl

/-- A line is refused exactly for a reason of TextDecode, and otherwise is the step of its instruction (R121). -/
theorem executeLine_cases (text : Line) (b : Block w pcw) :
    (∃ reason, textDecode w text = .error reason ∧ executeLine text b = .error reason) ∨
    (∃ d, textDecode w text = .ok d ∧ executeLine text b = .ok (stepDecoded d b)) := by
  cases h : textDecode w text with
  | error reason => exact .inl ⟨reason, rfl, by simp only [executeLine, h]⟩
  | ok d => exact .inr ⟨d, rfl, by simp only [executeLine, h]⟩

/-- If the block takes an offer, it was reset, or performed one decoded instruction. -/
theorem take_cases {o : Offer w} {b c : Block w pcw} (h : b.take o = .ok c) :
    (o = .reset ∧ c = Block.reset w pcw) ∨
    (∃ iw, o = .word iw ∧ c = stepDecoded (decodeWord iw) b) ∨
    (∃ text d, o = .line text ∧ textDecode w text = .ok d ∧ c = stepDecoded d b) := by
  cases o with
  | reset =>
    simp only [Block.take, Except.ok.injEq] at h
    exact .inl ⟨rfl, h.symm⟩
  | word iw =>
    simp only [Block.take, stepWord, Except.ok.injEq] at h
    exact .inr (.inl ⟨iw, rfl, h.symm⟩)
  | line text =>
    simp only [Block.take] at h
    rcases executeLine_cases text b with ⟨_, -, he⟩ | ⟨d, hd, he⟩
    · rw [he] at h
      cases h
    · rw [he, Except.ok.injEq] at h
      exact .inr (.inr ⟨text, d, rfl, hd, h.symm⟩)

/-- The empty run. -/
@[simp] theorem hostRun_nil (policy : Config.OnError) (b : Block w pcw) : hostRun policy [] b = .ok b := rfl

/-- One unfolding of a run: take the first offer, then stop or go on. -/
theorem hostRun_cons_ok {policy : Config.OnError} {o : Offer w} {rest : List (Offer w)} {b c : Block w pcw}
    (h : b.take o = .ok c) :
    hostRun policy (o :: rest) b = if stopsAfter policy c then .ok c else hostRun policy rest c := by
  simp only [hostRun, h]

/-- A refused line ends a run (R219). -/
theorem hostRun_cons_error {policy : Config.OnError} {o : Offer w} {rest : List (Offer w)} {b : Block w pcw}
    {reason : LineRefusal} (h : b.take o = .error reason) : hostRun policy (o :: rest) b = .error reason := by
  simp only [hostRun, h]

@[simp] theorem stopsAfter_skip (b : Block w pcw) : stopsAfter .skip b = false := rfl

/-- Under `halt` the host stops exactly after an `Err` (R209). -/
theorem stopsAfter_halt (b : Block w pcw) : stopsAfter .halt b = true ↔ b.err ≠ 0#2 := by
  simp [stopsAfter]

/-- If a step answers a next state, either nothing was offered and nothing changed, or it took the oldest offer. -/
theorem step_cases {s t : State} (h : step s = .next t) :
    (s.supply = [] ∧ t = s) ∨
    (∃ o rest, s.supply = o :: rest ∧ takeOffer o { s with supply := rest } = .next t) := by
  simp only [step, takeNext] at h
  split at h
  · rename_i hs
    simp only [Host.Outcome.next.injEq] at h
    exact .inl ⟨hs, h.symm⟩
  · rename_i o rest hs
    exact .inr ⟨o, rest, hs, h⟩

/-- A line on the machine: refused with TextDecode's reason, or the step of its instruction on the block. -/
theorem runLine_cases (text : Line) (s : State) :
    (∃ reason, textDecode Config.W text = .error reason ∧ runLine text s = .refused (.lineRefused reason)) ∨
    (∃ d, textDecode Config.W text = .ok d ∧ runLine text s = .next (s.withBlock (stepDecoded d s.toBlock))) := by
  rcases executeLine_cases text s.toBlock with ⟨e, he, hx⟩ | ⟨d, hd, hx⟩
  · exact .inl ⟨e, he, by simp only [runLine, hx]⟩
  · exact .inr ⟨d, hd, by simp only [runLine, hx]⟩

/-- The host's `Core.run` of this machine, one step at a time. -/
theorem core_run_succ_next {k : Nat} {s t : State} (h : step s = .next t) : core.run (k + 1) s = core.run k t := by
  have h' : core.step s = .next t := h
  simp only [Host.Core.run, h']

/-- A refused step ends the run. -/
theorem core_run_succ_refused {k : Nat} {s : State} {r : Refusal} (h : step s = .refused r) :
    core.run (k + 1) s = .refused r := by
  have h' : core.step s = .refused r := h
  simp only [Host.Core.run, h']

end Sys2Proof.Machine
end

