-- ==== Sys2Proof/Tests/Slice0.lean ====
section
/-! SUPPORT. The model's own tests. Expected values are spec/95_test_vectors.md's (part and row named), or worked by hand
from the rule named; words are written out from 30_encoding.md R75 and R76. -/

open Sys2Proof Sys2Proof.Machine

namespace Sys2Proof.Tests

/-- A block by the notation of 95_test_vectors.md, part 0. -/
def blk (w : Nat) (acc r1 r2 r3 r4 : Int) (sign pc tc err : Nat) : Block w 32 where
  acc := bitsOf _ acc
  r1 := bitsOf _ r1
  r2 := bitsOf _ r2
  r3 := bitsOf _ r3
  r4 := bitsOf _ r4
  sign := BitVec.ofNat _ sign
  pc := BitVec.ofNat _ pc
  tc := BitVec.ofNat _ tc
  err := BitVec.ofNat _ err

/-- The machine with such a block, and nothing offered. -/
def st (acc r1 r2 r3 r4 : Int) (sign pc tc err : Nat) : State where
  toBlock := blk 30 acc r1 r2 r3 r4 sign pc tc err
  supply := []

/-- The state before most vectors of part 2. -/
def before : State := st (-3) 1 2 3 4 1 6 1 0

/-- The block a line or a run leaves, if it is not refused. -/
def blockOf {w : Nat} (e : Except LineRefusal (Block w 32)) : Option (Block w 32) :=
  match e with
  | .ok b => some b
  | .error _ => none

/-- The next state of an outcome, if it is one. -/
def nextOf (o : Host.Outcome State Fault Refusal) : Option State :=
  match o with
  | .next t => some t
  | .fault _ => none
  | .refused _ => none

/-- A line, from a string. -/
def ln (s : String) : Line := s.toList

/-- What TextDecode makes of a line, by the disassembly spelling; none where it is refused. -/
def reads (w : Nat) (s : String) : Option (Decoded w) :=
  match textDecode w (ln s) with
  | .ok d => some d
  | .error _ => none

/-- Why TextDecode refuses a line. -/
def refuses (w : Nat) (l : Line) : Option LineRefusal :=
  match textDecode w l with
  | .ok _ => none
  | .error e => some e

/-! ### Well-formedness: an ill-formed term for each check that can fail -/

/-- W by R7; PCW by log entry 20. -/
theorem test_width_zero_is_illegal : Config.legal 0 32 = false ∧ Config.legal 30 0 = false := by decide
theorem test_default_widths_are_legal : Config.legal Config.W Config.PCW = true := by decide
theorem test_literal_eight_does_not_fit_four_bits : literalFits 4 8 = false ∧ literalFits 4 (-9) = false := by decide
theorem test_extreme_literals_fit : literalFits 4 7 = true ∧ literalFits 4 (-8) = true := by decide
theorem test_line_with_wide_literal_is_not_admitted : lineAdmitted 4 (ln "mov 9") = false := by decide
theorem test_line_with_underscore_is_not_admitted : lineAdmitted 30 (ln "add 1_0") = false := by decide
theorem test_line_with_nul_is_not_admitted : lineAdmitted 30 (ln "mov " ++ [Char.ofNat 0]) = false := by decide
theorem test_failing_line_is_admitted : lineAdmitted 30 (ln "save R9") = true := by decide
theorem test_program_with_a_refused_line_is_not_admitted :
    programAdmitted 30 [ln "mov 5", ln "mov 1_000"] = false := by decide
theorem test_every_instruction_is_well_formed : Instr.wellFormed (.mov (-1)) = true ∧ Instr.wellFormed (.save .r4) = true := by
  decide

/-! ### Decoding: every row, its word written out from OPC S K RS IMM (R75, R76) -/

theorem test_decode_mov : decodeTableWord 40 0b000_0_00_00_000000000000000000000000000101 = some (.mov 5) := by decide
theorem test_decode_save : decodeTableWord 40 0b001_0_00_01_000000000000000000000000000000 = some (.save .r2) := by decide
theorem test_decode_addR : decodeTableWord 40 0b010_0_00_10_000000000000000000000000000000 = some (.addR .r3) := by decide
theorem test_decode_addI : decodeTableWord 40 0b010_1_00_00_000000000000000000000000000011 = some (.addI 3) := by decide
theorem test_decode_subR : decodeTableWord 40 0b011_0_00_11_000000000000000000000000000000 = some (.subR .r4) := by decide
theorem test_decode_subI : decodeTableWord 40 0b011_1_00_00_111111111111111111111111111000 = some (.subI (-8)) := by decide
theorem test_decode_errInvalidOperand :
    decodeTableWord 40 0b100_0_01_00_000000000000000000000000000000 = some .errInvalidOperand := by decide
theorem test_decode_errUnknownRegister :
    decodeTableWord 40 0b100_0_10_00_000000000000000000000000000000 = some .errUnknownRegister := by decide
theorem test_decode_errMalformedInstruction :
    decodeTableWord 40 0b100_0_11_00_000000000000000000000000000000 = some .errMalformedInstruction := by decide
theorem test_decode_unkOpc100 : decodeTableWord 40 0b100_0_00_00_000000000000000000000000000000 = some .unkOpc100 := by decide
theorem test_decode_unkOpc101 : decodeTableWord 40 0b101_0_00_00_000000000000000000000000000000 = some .unkOpc101 := by decide
theorem test_decode_unkOpc110 : decodeTableWord 40 0b110_0_00_00_000000000000000000000000000000 = some .unkOpc110 := by decide
theorem test_decode_unkOpc111 : decodeTableWord 40 0b111_0_00_00_000000000000000000000000000000 = some .unkOpc111 := by decide

/-- Part 2.3, words at W = 4 with ignored fields set. -/
theorem test_decode_ignores_fields :
    decodeWord (w := 4) 0x1F5#12 = .mov 5#4 ∧ decodeWord (w := 4) 0x23A#12 = .save .r4 ∧
    decodeWord (w := 4) 0x4F3#12 = .add (.reg .r4) ∧ decodeWord (w := 4) 0x55A#12 = .add (.imm (-6)) ∧
    decodeWord (w := 4) 0x7B8#12 = .sub (.imm (-8)) ∧ decodeWord (w := 4) 0x9FF#12 = .fail .malformedInstruction ∧
    decodeWord (w := 4) 0x800#12 = .unknown ∧ decodeWord (w := 4) 0xBFF#12 = .unknown := by decide

/-- Part 2.2, the IW column. -/
theorem test_asm_words :
    asm (w := 30) (.mov (-1)) = 0x003FFFFFFF#38 ∧ asm (w := 30) (.save .r4) = 0x08C0000000#38 ∧
    asm (w := 30) (.add (.imm 3)) = 0x1400000003#38 ∧ asm (w := 30) (.sub (.reg .r1)) = 0x1800000000#38 ∧
    asm (w := 30) .unknown = 0x3800000000#38 ∧ asm (w := 4) (.sub (.imm (-8))) = 0x708#12 := by decide

/-- The encoder gives each row's match value (opcode_table.json), operands zero. -/
theorem test_encode_rows :
    encode .errInvalidOperand = 0x2100000000#38 ∧ encode .unkOpc100 = 0x2000000000#38 ∧
    encode .unkOpc101 = 0x2800000000#38 ∧ encode .unkOpc110 = 0x3000000000#38 ∧
    encode (.addR .r1) = 0x1000000000#38 ∧ encode (.subI 0) = 0x1C00000000#38 := by decide

/-! ### Text (part 2.2) -/

theorem test_text_literals :
    reads 30 "mov +7" = some (.mov 7) ∧ reads 30 "mov 007" = some (.mov 7) ∧ reads 30 "mov -0" = some (.mov 0) ∧
    reads 30 "mov 536870911" = some (.mov 536870911) ∧ reads 30 "mov -536870912" = some (.mov (-536870912)) := by decide
theorem test_text_range_refusals :
    refuses 30 (ln "mov 536870912") = some .literalRange ∧ refuses 30 (ln "mov -536870913") = some .literalRange ∧
    refuses 4 (ln "add 8") = some .literalRange ∧ refuses 30 (ln "mov 9999999999 x") = some .literalRange := by decide
theorem test_text_unsettled : refuses 30 (ln "mov 1_000") = some .unsettledToken := by decide
theorem test_text_charset : refuses 30 (ln "mov 5" ++ [Char.ofNat 0xE9]) = some .charset ∧
    refuses 30 (ln "mov " ++ [Char.ofNat 0xFF17]) = some .charset := by decide
theorem test_text_failures :
    reads 30 "mov R1" = some (.fail .invalidOperand) ∧ reads 30 "mov 0x10" = some (.fail .invalidOperand) ∧
    reads 30 "save 3" = some (.fail .unknownRegister) ∧ reads 30 "save r1" = some (.fail .unknownRegister) ∧
    reads 30 "add" = some (.fail .malformedInstruction) ∧ reads 30 "   " = some (.fail .malformedInstruction) ∧
    reads 30 "save 9999999999" = some (.fail .unknownRegister) := by decide
theorem test_text_whitespace : reads 30 "  add   R3  " = some (.add (.reg .r3)) ∧
    reads 30 "\tsub\t3\r\n" = some (.sub (.imm 3)) := by decide
theorem test_text_surplus : reads 30 "mov 5 6" = some (.mov 5) ∧ reads 30 "add R1 junk" = some (.add (.reg .r1)) := by decide
theorem test_text_unknown : reads 30 "MOV 1" = some .unknown ∧ reads 30 "halt R9 x" = some .unknown ∧
    reads 30 "nop 9999999999" = some .unknown := by decide
theorem test_disassemble : disassemble (w := 30) (.mov (-42)) = ln "mov -42" ∧
    disassemble (w := 30) (.sub (.reg .r2)) = ln "sub R2" ∧ disassemble (w := 4) .unknown = ln ".unk" ∧
    disassemble (w := 4) (.fail .invalidOperand) = ln ".err InvalidOperand" := by decide

/-! ### The codec (part 2.1) -/

theorem test_codec_encode :
    Codec.encode 5 4 = some (ln "0101") ∧ Codec.encode (-6) 4 = some (ln "1010") ∧ Codec.encode (-8) 4 = some (ln "1000") ∧
    Codec.encode 0 1 = some (ln "0") ∧ Codec.encode (-1) 1 = some (ln "1") := by decide
theorem test_codec_encode_refused :
    Codec.encode 8 4 = none ∧ Codec.encode (-9) 4 = none ∧ Codec.encode 0 0 = none := by decide
theorem test_codec_decode :
    Codec.decode (ln "1000") = .ok (-8) ∧ Codec.decode (ln "01111111") = .ok 127 ∧ Codec.decode (ln "1") = .ok (-1) := ⟨rfl, rfl, rfl⟩
theorem test_codec_decode_malformed :
    Codec.decode (ln "") = .error .invalidEncoding ∧ Codec.decode (ln " 01") = .error .invalidEncoding ∧
    Codec.decode (ln "0b1") = .error .invalidEncoding := ⟨rfl, rfl, rfl⟩

/-! ### One step of each instruction (parts 2.4 to 2.8) -/

/-- Part 2.4: SIGN stays 0 although ACC < 0. -/
theorem test_mov_leaves_sign :
    nextOf (exec (.mov (-536870912)) State.reset) = some (st (-536870912) 0 0 0 0 0 1 1 0) := by decide
/-- E4: SIGN stays 1, and err_o is cleared. -/
theorem test_mov_overwrites : nextOf (exec (.mov 7) (st 123 0 0 0 0 1 9 1 2)) = some (st 7 0 0 0 0 1 10 1 0) := by decide
/-- Part 2.5: only R3 changes. -/
theorem test_save_writes_one_register :
    nextOf (exec (.save .r3) (st (-5) 1 2 3 4 1 3 1 0)) = some (st (-5) 1 2 (-5) 4 1 4 1 0) := by decide
/-- Part 2.6: min XOR max is −1. -/
theorem test_addR_min_xor_max :
    nextOf (exec (.addR .r1) (st (-536870912) 536870911 0 0 0 1 0 1 0)) =
      some (st (-1) 536870911 0 0 0 1 1 1 0) := by decide
/-- Part 2.6: `add 0` recomputes SIGN from 0 to 1. -/
theorem test_addI_zero_recomputes_sign :
    nextOf (exec (.addI 0) (st (-3) 0 0 0 0 0 0 1 0)) = some (st (-3) 0 0 0 0 1 1 1 0) := by decide
/-- Part 2.6: XOR, not 2 − 5. -/
theorem test_subR_is_xor : nextOf (exec (.subR .r2) (st 2 0 5 0 0 0 0 1 0)) = some (st 7 0 5 0 0 0 1 1 0) := by decide
/-- Part 2.6: 5 XOR −1 is −6. -/
theorem test_subI_complements : nextOf (exec (.subI (-1)) (st 5 0 0 0 0 0 0 1 0)) = some (st (-6) 0 0 0 0 1 1 1 0) := by decide
/-- Part 2.7: only PC, TC and err_o change. -/
theorem test_err_words :
    nextOf (exec .errInvalidOperand before) = some (st (-3) 1 2 3 4 1 7 1 1) ∧
    nextOf (exec .errUnknownRegister before) = some (st (-3) 1 2 3 4 1 7 1 2) ∧
    nextOf (exec .errMalformedInstruction State.reset) = some (st 0 0 0 0 0 0 1 1 3) := by decide
/-- Part 2.7: err_o is cleared. -/
theorem test_unknown_words :
    nextOf (exec .unkOpc100 before) = some (st (-3) 1 2 3 4 1 7 1 0) ∧
    nextOf (exec .unkOpc101 (st (-3) 1 2 3 4 1 6 1 2)) = some (st (-3) 1 2 3 4 1 7 1 0) ∧
    nextOf (exec .unkOpc110 before) = some (st (-3) 1 2 3 4 1 7 1 0) ∧
    nextOf (exec .unkOpc111 before) = some (st (-3) 1 2 3 4 1 7 1 0) := by decide
/-- Part 2.8: PC wraps at PCW = 32. -/
theorem test_pc_wraps : nextOf (exec (.mov 1) (st 0 0 0 0 0 0 4294967295 1 0)) = some (st 1 0 0 0 0 0 0 1 0) := by decide
/-- Part 2.8: reset after a run. -/
theorem test_reset : nextOf (takeOffer .reset (st (-1) 5 0 0 (-1) 1 8 1 3)) = some State.reset := by decide
/-- The example of R181: `save R9` at PC = 4. -/
theorem test_failing_line :
    blockOf (executeLine (ln "save R9") (blk 30 7 1 2 3 4 0 4 1 0)) = some (blk 30 7 1 2 3 4 0 5 1 2) := by decide
/-- R121: a refused line is no step. -/
theorem test_refused_line : runLine (ln "mov 1_000") before = .refused (.lineRefused .unsettledToken) := rfl
/-- The first instruction after reset (R234): `mov 7` as a word. -/
theorem test_first_step : nextOf (step (State.reset.withFetchWord 40 0x0000000007)) = some (st 7 0 0 0 0 0 1 1 0) := by decide
/-- R209, R219: the host stops after `save R9` under halt and goes on under skip (two lines of program P3). -/
theorem test_error_policy :
    blockOf (hostRun .halt [.line (ln "save R9"), .line (ln "nop")] (blk 30 7 0 0 0 0 0 2 1 0)) =
      some (blk 30 7 0 0 0 0 0 3 1 2) ∧
    blockOf (hostRun .skip [.line (ln "save R9"), .line (ln "nop")] (blk 30 7 0 0 0 0 0 2 1 0)) =
      some (blk 30 7 0 0 0 0 0 4 1 0) := by decide
/-- R214 on the state after E4's second example. -/
theorem test_output_record :
    (outputRecord (ln "mov 7") (snapshot (blk 30 7 0 0 0 0 1 10 1 0))).map (fun o => (o.acc, o.pc, o.tc, o.sign)) =
      some (ln "000000000000000000000000000111", 10, 1, 1) := by decide
/-- W = 4, by R75 and R160: 0x55A is `add -6`, and 5 XOR −6 is −1 (0101 XOR 1010). -/
theorem test_step_at_four_bits :
    stepWord (w := 4) 0x55A#12 (blk 4 5 1 2 3 4 0 6 1 0) = blk 4 (-1) 1 2 3 4 1 7 1 0 := by decide
/-- W = 1, by R21 and R128: −1 is the one negative value, and −1 XOR −1 is 0. -/
theorem test_step_at_one_bit :
    stepDecoded (w := 1) (.sub (.imm (-1))) (blk 1 (-1) 0 0 0 0 1 6 1 0) = blk 1 0 0 0 0 0 0 7 1 0 := by decide
/-- R165: −3 XOR 5 is −8 on infinite bit strings (…11101 XOR …00101 = …11000). -/
theorem test_intXor : Source.intXor (-3) 5 = -8 ∧ Source.intXor (-536870912) 536870911 = -1 := by decide

/-! ### Witnesses: for every statement with hypotheses, a case that meets them -/

theorem witness_StepRunsTheDecodedInstruction : decodeTableWord 40 0x0840000000 = some (.save .r2) := by decide
theorem witness_SaveCopiesTheAccumulator : Reg.r2 ≠ Reg.r1 := by decide
theorem witness_WritesOfEachDecodedInstruction : Reg.r4 ≠ Reg.r3 := by decide
theorem witness_CountersAdvanceOnEveryStep : lineAdmitted Config.W (ln "save R9") = true := by decide
theorem witness_StepsApplyAllTheirWritesOrFailWithNone :
    (nextOf (exec .errUnknownRegister before)).map (fun t => t.err) = some 2#2 ∧
    (nextOf (exec (.mov 5) before)).map (fun t => t.err) = some 0#2 ∧
    (stepDecoded (.fail .unknownRegister) before.toBlock).err = 2#2 ∧ (stepDecoded (.mov 5) before.toBlock).err = 0#2 := by decide
theorem witness_SignIsWrittenByAddAndSubOnly :
    (∃ r, Instr.addR .r1 = .addR r ∨ Instr.addR .r1 = .subR r) ∧
    ¬((∃ r, Instr.mov 5 = .addR r ∨ Instr.mov 5 = .subR r) ∨ (∃ v, Instr.mov 5 = .addI v ∨ Instr.mov 5 = .subI v)) ∧
    (∃ src : Src Config.W, Decoded.add (.reg .r1) = .add src ∨ Decoded.add (.reg .r1) = .sub src) ∧
    ¬(∃ src : Src Config.W, Decoded.unknown = .add src ∨ Decoded.unknown = .sub src) :=
  ⟨⟨.r1, .inl rfl⟩, by simp, ⟨_, .inl rfl⟩, by simp⟩
theorem witness_LawsOfTheXorAlu : 1 ≤ 1 ∧ 1 ≤ Config.W := by decide
theorem witness_XorOfIntegersStaysInRangeAndIsExact : 1 ≤ 4 ∧ Codec.InRange 4 (-8) ∧ Codec.InRange 4 7 := by decide
theorem witness_IgnoredFieldsHaveNoEffect :
    decodeWord (w := 30) 0x07FFFFFFFF#38 = decodeWord 0x003FFFFFFF#38 ∧ (0x07FFFFFFFF#38 ≠ 0x003FFFFFFF#38) ∧
    ((0b011#3 = 0b010#3 ∨ 0b011#3 = 0b011#3) ∧ (0b101#3 = 0b101#3 ∨ 0b101#3 = 0b110#3 ∨ 0b101#3 = 0b111#3)) := by decide
theorem witness_LineAndItsAssembledWordBehaveAlike : textDecode Config.W (ln "add -1") = .ok (.add (.imm (-1))) := rfl
theorem witness_TokenizeTakesTheMaximalRuns :
    (∀ c ∈ ln " \t", isWhitespace c = true) ∧ ln "mov" ≠ [] ∧ (∀ c ∈ ln "mov", isWhitespace c = false) ∧
    (∀ c ∈ (ln " 5").head?, isWhitespace c = true) ∧ (∀ c ∈ (ln "").head?, isWhitespace c = true) := by
  refine ⟨List.all_eq_true.1 (by decide), by decide, fun c hc => ?_, fun c hc => ?_, fun c hc => ?_⟩
  · have h : (ln "mov").all (fun c => !isWhitespace c) = true := by decide
    simpa using List.all_eq_true.1 h c hc
  · have h : (ln " 5").head? = some ' ' := by decide
    rw [h] at hc
    cases hc
    decide
  · cases hc
theorem witness_NamesAreMatchedExactly :
    (ln "MOV 1").all inCharset = true ∧ tokenize (ln "MOV 1") = ln "MOV" :: [ln "1"] := by decide
theorem witness_ClassesOfAnOperandToken :
    classLit 30 (ln "1_0") = .unsettled ∧ (ln "add 1_0").all inCharset = true ∧
    tokenize (ln "add 1_0") = ln "add" :: ln "1_0" :: [] ∧ takesLiteral (ln "add") :=
  ⟨by decide, by decide, by decide, .inr (.inl rfl)⟩
theorem witness_OutOfRangeLiteralsAreRefused :
    (ln "mov 8").all inCharset = true ∧ tokenize (ln "mov 8") = ln "mov" :: ln "8" :: [] ∧ takesLiteral (ln "mov") ∧
    literalValue (ln "8") = some 8 ∧ ¬Codec.InRange 4 8 ∧ literalValue (ln "-8") = some (-8) ∧ Codec.InRange 4 (-8) :=
  ⟨by decide, by decide, .inl rfl, by decide, by decide, by decide, by decide⟩
theorem witness_ImmediateFieldHoldsTheLiteral : 1 ≤ 4 ∧ classLit 4 (ln "-8") = .lit (-8) := by decide
theorem witness_OperandTokensAfterTheFirstAreIgnored :
    (ln "mov 5 6").all inCharset = true ∧ (ln "mov 5").all inCharset = true ∧
    tokenize (ln "mov 5 6") = ln "mov" :: ln "5" :: [ln "6"] ∧ tokenize (ln "mov 5") = ln "mov" :: ln "5" :: [] := by decide
theorem witness_UnrecognizedLineDoesOnlyTheCommonStep :
    (ln "jmp 5").all inCharset = true ∧ tokenize (ln "jmp 5") = ln "jmp" :: [ln "5"] ∧ ¬isRecognized (ln "jmp") := by
  refine ⟨by decide, by decide, ?_⟩
  unfold isRecognized takesLiteral
  decide
theorem witness_DisassemblyReadsBack : 1 ≤ 1 ∧ disassemble (w := 1) (.mov 1#1) = ln "mov -1" := by decide
theorem witness_CodecRoundTripAndWidth :
    1 ≤ 4 ∧ (-2 ^ (4 - 1) : Int) ≤ -8 ∧ (7 : Int) < 2 ^ (4 - 1) ∧ (-2 ^ (1 - 1) : Int) ≤ -1 := by decide
theorem witness_RenderedRegisterIsItsBits : 1 ≤ 1 ∧ bitStringOf 1#1 = ln "1" := by decide
theorem witness_DecodeIsInRangeAndInvertedByEncode : ln "10" ≠ [] ∧ ∀ c ∈ ln "10", c = '0' ∨ c = '1' := by
  refine ⟨by decide, fun c hc => ?_⟩
  have h : (ln "10").all (fun c => c == '0' || c == '1') = true := by decide
  simpa using List.all_eq_true.1 h c hc
theorem witness_PcCountsTheStepsSinceReset :
    [Offer.word (w := 30) 0, .reset, .line (ln "nop"), .word 5].all offerAdmitted = true ∧
    stepsSinceReset [Offer.word (w := 30) 0, .reset, .line (ln "nop"), .word 5] = 2 := by decide
theorem witness_EveryAnsweredOfferKeepsThePcCount :
    uint (blk 30 5 1 2 3 4 0 4294967295 1 0).pc = 4294967295 % 2 ^ 32 ∧
    blockOf ((blk 30 5 1 2 3 4 0 4294967295 1 0).take (.word 0)) = some (blk 30 0 1 2 3 4 0 0 1 0) ∧
    blockOf ((blk 30 5 1 2 3 4 0 4294967295 1 0).take (.line (ln "save R9"))) = some (blk 30 5 1 2 3 4 0 0 1 2) ∧
    blockOf ((blk 30 5 1 2 3 4 0 4294967295 1 0).take .reset) = some (Block.reset 30 32) ∧
    (before.offering [.word 5]).supply = [.word 5] ∧ uint before.pc = 6 % 2 ^ Config.PCW ∧
    nextOf (step (before.offering [.word 5])) = some (st 5 1 2 3 4 1 7 1 0) := by decide
theorem witness_CoreRunIsTheHostsRunUnderSkip :
    before.supply = [] ∧ blockOf (hostRun .skip [.word 5] before.toBlock) = some (blk 30 5 1 2 3 4 1 7 1 0) ∧
    hostRun .skip [.line (ln "mov 1_000")] before.toBlock = .error .unsettledToken := ⟨rfl, by decide, rfl⟩
theorem witness_HaltRunIsASkipRunUpToTheFirstError :
    blockOf (hostRun .halt [.word 0x2100000000, .word 5] (Block.reset 30 32)) = some (blk 30 0 0 0 0 0 0 1 1 1) ∧
    [Offer.word (w := 30) 5, .word 0x2100000000] = [.word 5] ++ .word 0x2100000000 :: [] ∧
    [Offer.word (w := 30) 5] ≠ [] ∧
    blockOf (hostRun .skip [.word 5] (Block.reset 30 32)) = some (blk 30 5 0 0 0 0 0 1 1 0) := by decide
theorem witness_RunsOverAdmittedOffersComplete :
    [Offer.reset (w := 30), .word 0x3FFFFFFFFF, .line (ln "")].all offerAdmitted = true ∧
    offerAdmitted (Offer.line (w := Config.W) (ln "save R9")) = true := by decide
theorem witness_StepIsRefusedOnlyForARefusedLine :
    step { before with supply := [.line (ln "mov 1_000")] } = .refused (.lineRefused .unsettledToken) := rfl
theorem witness_EveryStepKeepsTcMarksReset :
    TcMarksReset (Block.reset 30 32) ∧ (State.reset.offering [.word 5]).toBlock = Block.reset 30 32 ∧
    nextOf (step (State.reset.offering [.word 5])) = some (st 5 0 0 0 0 0 1 1 0) :=
  ⟨fun _ => rfl, rfl, by decide⟩
theorem witness_OutputRecordShowsTheState : 1 ≤ 1 ∧ render (w := 1) 1#1 = some (ln "1") := by decide
theorem witness_BlockRefinesTheUnboundedSourceEngine :
    1 ≤ 30 ∧ Source.Agrees ⟨-3, 1, 2, 3, 4, 1, 6, 1⟩ before.toBlock ∧
    programAdmitted 30 [ln "add -6", ln "save R9", ln "nop"] = true :=
  ⟨by decide, by constructor <;> decide, by decide⟩
theorem witness_CountersAndSignNeverReachTheData :
    SameData (blk 30 5 1 2 3 4 0 0 0 0) (blk 30 5 1 2 3 4 1 9 1 3) ∧ [Offer.word (w := 30) 5] ≠ [] ∧
    blockOf (hostRun .skip [.word 5] (blk 30 5 1 2 3 4 0 0 0 0)) = some (blk 30 5 1 2 3 4 0 1 1 0) :=
  ⟨⟨rfl, rfl, rfl, rfl, rfl⟩, by decide, by decide⟩

end Sys2Proof.Tests
end

section
/-! PROOFS: the family 10_state.md. First what an offer does to the block, on the block and on the machine; then the
counters, the flag and the registers; last the two relations between runs, `SameData` and `Source.Agrees`. -/

namespace Sys2Proof.Machine

variable {w pcw : Nat}

/-! ### The machine's step is the block's -/

/-- `exec` by rows of the opcode table is the spec's step of the row's decoded instruction (R120, R131). -/
theorem exec_eq_stepDecoded (i : Instr) (s : State) :
    exec i s = .next (s.withBlock (stepDecoded i.decoded s.toBlock)) := by
  cases i <;> rfl

/-- The decoder by rows and the decoder of R79 read the same instruction from a word: they branch alike on OPC, then on S
(OPC 010 and 011) or K (OPC 100). -/
theorem decoded_decode (iw : IWord Config.W) : (decode iw).decoded = decodeWord iw := by
  simp only [decode, decodeWord, srcOf]
  split
  case h_3 | h_4 => split <;> rfl
  case h_5 => split <;> rfl
  all_goals rfl

/-- When the machine answers an offer, its block is the block's own answer. -/
theorem take_of_takeOffer {o : Offer Config.W} {s t : State} (h : takeOffer o s = .next t) :
    s.toBlock.take o = .ok t.toBlock := by
  cases o with
  | reset =>
    simp only [takeOffer, Host.Outcome.next.injEq] at h
    subst h
    rfl
  | word iw =>
    simp only [takeOffer, exec_eq_stepDecoded, decoded_decode, Host.Outcome.next.injEq] at h
    subst h
    rfl
  | line text =>
    rcases executeLine_cases text s.toBlock with ⟨reason, -, hx⟩ | ⟨d, -, hx⟩ <;>
      simp only [takeOffer, runLine, hx] at h
    · cases h
    · cases h
      exact hx

/-- A step leaves the state as it is where nothing is offered, and else the block takes the oldest offer. -/
theorem take_of_step {s t : State} (h : step s = .next t) :
    (s.supply = [] ∧ t = s) ∨ (∃ o rest, s.supply = o :: rest ∧ s.toBlock.take o = .ok t.toBlock) := by
  rcases step_cases h with hidle | ⟨o, rest, hs, ho⟩
  · exact .inl hidle
  · exact .inr ⟨o, rest, hs, take_of_takeOffer (s := { s with supply := rest }) ho⟩

/-- Every admitted offer is answered (R79, R121, R230). -/
theorem exists_take_of_admitted {o : Offer w} (h : offerAdmitted o = true) (b : Block w pcw) :
    ∃ c, b.take o = .ok c := by
  cases o with
  | reset => exact ⟨_, rfl⟩
  | word iw => exact ⟨_, rfl⟩
  | line text =>
    rcases executeLine_cases text b with ⟨reason, hd, -⟩ | ⟨d, -, hx⟩
    · simp [offerAdmitted, lineAdmitted, hd] at h
    · exact ⟨_, hx⟩

/-! ### What a step does to each piece of state -/

@[simp] theorem perform_pc (d : Decoded w) (b : Block w pcw) : (perform d b).1.pc = b.pc := by
  cases d <;> simp only [perform, writeAcc_pc, saveAcc_pc, xorIntoAcc_pc]

/-- Every step moves PC on by one, failing steps too (R27, R129). -/
@[simp] theorem stepDecoded_pc (d : Decoded w) (b : Block w pcw) : (stepDecoded d b).pc = nextPc b.pc := by
  simp only [stepDecoded, finishStep_pc, perform_pc, startStep_pc]

/-- Every step ends with TC = 1 (R122). -/
@[simp] theorem stepDecoded_tc (d : Decoded w) (b : Block w pcw) : (stepDecoded d b).tc = 1#1 := rfl

/-- Only `save Rn` writes Rn (R22). -/
theorem readReg_stepDecoded (q : Reg) (d : Decoded w) (b : Block w pcw) :
    readReg q (stepDecoded d b) = if d = .save q then b.acc else readReg q b := by
  cases d with
  | save r => simp [stepDecoded, perform, eq_comm]
  | mov imm => simp [stepDecoded, perform]
  | add src => simp [stepDecoded, perform]
  | sub src => simp [stepDecoded, perform]
  | unknown => simp [stepDecoded, perform]
  | fail k => simp [stepDecoded, perform]

/-- The instructions that write SIGN (R25). -/
def WritesSign (d : Decoded w) : Prop := ∃ src, d = .add src ∨ d = .sub src

/-- `add` and `sub` write SIGN from the new ACC (R25, R128). -/
theorem stepDecoded_sign_of_writesSign {d : Decoded w} (h : WritesSign d) (b : Block w pcw) :
    (stepDecoded d b).sign = signOf (stepDecoded d b).acc := by
  obtain ⟨src, rfl | rfl⟩ := h <;> rfl

/-- Every other instruction leaves SIGN (R25). -/
theorem stepDecoded_sign_of_not_writesSign {d : Decoded w} (h : ¬ WritesSign d) (b : Block w pcw) :
    (stepDecoded d b).sign = b.sign := by
  cases d with
  | add src => exact absurd ⟨src, .inl rfl⟩ h
  | sub src => exact absurd ⟨src, .inr rfl⟩ h
  | mov imm => rfl
  | save r => simp [stepDecoded, perform]
  | unknown => rfl
  | fail k => rfl

/-- The rows whose decoded instruction writes SIGN. -/
theorem writesSign_decoded_iff (i : Instr) :
    WritesSign i.decoded ↔ (∃ r, i = .addR r ∨ i = .subR r) ∨ (∃ v, i = .addI v ∨ i = .subI v) := by
  cases i <;> simp [WritesSign, Instr.decoded]

/-- SIGN is 0 exactly for a value that is not negative (R25). -/
theorem signOf_eq_zero_iff (x : BitVec w) : signOf x = 0#1 ↔ 0 ≤ sint x := by
  rw [signOf_eq_msb, BitVec.msb_eq_toInt, ← not_lt]
  by_cases h : x.toInt < 0 <;> simp [h]

/-- SIGN as a number is the source's test of the sign (R128). -/
theorem uint_signOf (x : BitVec w) : uint (signOf x) = if sint x < 0 then 1 else 0 := by
  rw [signOf_eq_msb, BitVec.msb_eq_toInt]
  by_cases h : x.toInt < 0 <;> simp [h]

/-! ### Reset -/

/-- Settles O1: all three states are the one block of `Block.reset`. -/
theorem resetZeroesEveryPieceOfState : Obligations.ResetZeroesEveryPieceOfState := by
  have hzero (w pcw : Nat) : (Block.reset w pcw).acc = 0#w ∧ (∀ r, readReg r (Block.reset w pcw) = 0#w) ∧
      (Block.reset w pcw).sign = 0 ∧ (Block.reset w pcw).pc = 0#pcw ∧ (Block.reset w pcw).tc = 0 ∧
      (Block.reset w pcw).err = 0 :=
    ⟨rfl, readReg_reset, rfl, rfl, rfl, rfl⟩
  exact ⟨fun s => ⟨_, rfl, hzero _ _⟩, hzero _ _, fun w pcw _ => ⟨_, rfl, hzero w pcw⟩⟩

/-- Settles O55: the state after reset is the block that TC = 0 marks. -/
theorem resetMeetsTcMarksReset : Obligations.ResetMeetsTcMarksReset := fun _ => rfl

/-! ### The registers and SIGN -/

/-- Settles O16, by the one write of a general register. -/
theorem generalRegistersAreWrittenBySaveOnly : Obligations.GeneralRegistersAreWrittenBySaveOnly := by
  intro i s
  refine ⟨_, exec_eq_stepDecoded i s, fun q => ?_⟩
  have hsave : i.decoded = .save q ↔ i = .save q := by cases i <;> simp [Instr.decoded]
  simp only [withBlock_toBlock, readReg_stepDecoded, hsave]

/-- R25 for every decoded instruction: the second half of O15, which its first half reads through `Instr.decoded`. -/
theorem stepDecoded_sign (d : Decoded w) (b : Block w pcw) :
    (WritesSign d →
      (stepDecoded d b).sign = BitVec.ofBool ((stepDecoded d b).acc.getLsbD (w - 1)) ∧
      ((stepDecoded d b).sign = 1#1 ↔ sint (stepDecoded d b).acc < 0) ∧
      ((stepDecoded d b).sign = 0#1 ↔ 0 ≤ sint (stepDecoded d b).acc)) ∧
    (¬ WritesSign d → (stepDecoded d b).sign = b.sign) := by
  refine ⟨fun h => ?_, fun h => stepDecoded_sign_of_not_writesSign h b⟩
  rw [stepDecoded_sign_of_writesSign h b]
  exact ⟨rfl, signOf_eq_one_iff _, signOf_eq_zero_iff _⟩

/-- Settles O15: a row writes SIGN exactly when its decoded instruction does. -/
theorem signIsWrittenByAddAndSubOnly : Obligations.SignIsWrittenByAddAndSubOnly := by
  refine ⟨fun i s => ⟨_, exec_eq_stepDecoded i s, ?_⟩, fun _ _ d b => stepDecoded_sign d b⟩
  rw [← writesSign_decoded_iff]
  exact stepDecoded_sign i.decoded s.toBlock

/-! ### TC and PC along a run -/

/-- An answered offer is a reset or ends with TC = 1 (R29). -/
theorem tcMarksReset_of_take {o : Offer w} {b c : Block w pcw} (h : b.take o = .ok c) : TcMarksReset c := by
  rcases take_cases h with ⟨-, rfl⟩ | ⟨iw, -, rfl⟩ | ⟨text, d, -, -, rfl⟩
  · exact fun _ => rfl
  all_goals
    intro htc
    rw [stepDecoded_tc] at htc
    cases htc

/-- Settles O56: an idle step keeps the state, and any other step answers an offer. -/
theorem everyStepKeepsTcMarksReset : Obligations.EveryStepKeepsTcMarksReset := by
  intro s t hinv hstep
  rcases take_of_step hstep with ⟨-, rfl⟩ | ⟨o, rest, -, htake⟩
  · exact hinv
  · exact tcMarksReset_of_take htake

/-- The count of R28 moved on by one modulo 2^PCW. -/
theorem uint_nextPc_of_count {pc : BitVec pcw} {n : Nat} (h : uint pc = n % 2 ^ pcw) :
    uint (nextPc pc) = (n + 1) % 2 ^ pcw := by
  rw [uint_nextPc, h, Nat.mod_add_mod]

/-- The step of R28's invariant, on the block. -/
theorem take_pcCount {o : Offer w} {b c : Block w pcw} {n : Nat} (hpc : uint b.pc = n % 2 ^ pcw)
    (h : b.take o = .ok c) : uint c.pc = (if isStepOffer o then n + 1 else 0) % 2 ^ pcw := by
  rcases take_cases h with ⟨rfl, rfl⟩ | ⟨iw, rfl, rfl⟩ | ⟨text, d, rfl, -, rfl⟩
  · simp [isStepOffer]
  all_goals
    rw [stepDecoded_pc]
    exact uint_nextPc_of_count hpc

/-- Settles O60: on the machine, the offer a step answers is the oldest of its supply. -/
theorem everyAnsweredOfferKeepsThePcCount : Obligations.EveryAnsweredOfferKeepsThePcCount := by
  refine ⟨fun _ _ _ _ _ _ hpc htake => take_pcCount hpc htake, ?_⟩
  intro n o rest s t hs hpc hstep
  rcases take_of_step hstep with ⟨hnil, -⟩ | ⟨o', rest', hs', htake⟩
  · simp [hs] at hnil
  · obtain ⟨rfl, -⟩ : o = o' ∧ rest = rest' := by simpa [hs] using hs'
    exact take_pcCount hpc htake

/-- A run over admitted offers ends, and PC has counted on from where it stood (R28). -/
theorem hostRun_skip_pcCount (offers : List (Offer w)) (hadm : offers.all offerAdmitted = true) (b : Block w pcw)
    (n : Nat) (hpc : uint b.pc = n % 2 ^ pcw) :
    ∃ c, hostRun .skip offers b = .ok c ∧
      uint c.pc = offers.foldl (fun n o => if isStepOffer o then n + 1 else 0) n % 2 ^ pcw := by
  induction offers generalizing b n with
  | nil => exact ⟨b, rfl, hpc⟩
  | cons o rest ih =>
    obtain ⟨ho, hrest⟩ : offerAdmitted o = true ∧ rest.all offerAdmitted = true := by
      simpa only [List.all_cons, Bool.and_eq_true] using hadm
    obtain ⟨c, hc⟩ := exists_take_of_admitted ho b
    have hrun : hostRun .skip (o :: rest) b = hostRun .skip rest c := by
      simp [hostRun_cons_ok hc]
    rw [hrun, List.foldl_cons]
    exact ih hrest c _ (take_pcCount hpc hc)

/-- Settles O50: a run begins with PC = 0, and each of its offers keeps the count. -/
theorem pcCountsTheStepsSinceReset : Obligations.PcCountsTheStepsSinceReset := by
  intro w pcw offers hadm
  obtain ⟨c, hrun, hpc⟩ := hostRun_skip_pcCount offers hadm (Block.reset w pcw) 0 (by simp)
  exact ⟨c, hrun, hpc, uint_nextPc_of_count hpc⟩

/-! ### Two runs from the same data -/

theorem SameData.readReg_eq {b c : Block w pcw} (h : SameData b c) (r : Reg) : readReg r b = readReg r c := by
  obtain ⟨-, h1, h2, h3, h4⟩ := h
  cases r <;> assumption

theorem sameData_of_readReg {b c : Block w pcw} (hacc : b.acc = c.acc) (h : ∀ r, readReg r b = readReg r c) :
    SameData b c :=
  ⟨hacc, h .r1, h .r2, h .r3, h .r4⟩

theorem SameData.operandMux_eq {b c : Block w pcw} (h : SameData b c) (src : Src w) :
    operandMux src b = operandMux src c := by
  cases src with
  | reg r => exact h.readReg_eq r
  | imm v => rfl

/-- What an instruction makes of ACC depends on the data registers only (R20). -/
theorem SameData.stepDecoded_acc_eq {b c : Block w pcw} (h : SameData b c) (d : Decoded w) :
    (stepDecoded d b).acc = (stepDecoded d c).acc := by
  have hacc : b.acc = c.acc := h.1
  cases d with
  | add src => simp [stepDecoded, perform, hacc, h.operandMux_eq src]
  | sub src => simp [stepDecoded, perform, hacc, h.operandMux_eq src]
  | mov imm => rfl
  | save r => simp [stepDecoded, perform, hacc]
  | unknown => exact hacc
  | fail k => exact hacc

/-- The result of a step is the instruction's alone (R125, R131). -/
theorem stepDecoded_err_eq (d : Decoded w) (b c : Block w pcw) : (stepDecoded d b).err = (stepDecoded d c).err := by
  cases d <;> rfl

/-- Two blocks hold the same data and show the same result and TC: all but SIGN and PC. -/
structure SameResult (b c : Block w pcw) : Prop where
  data : SameData b c
  err : b.err = c.err
  tc : b.tc = c.tc

theorem SameData.sameResult_stepDecoded {b c : Block w pcw} (h : SameData b c) (d : Decoded w) :
    SameResult (stepDecoded d b) (stepDecoded d c) where
  data := sameData_of_readReg (h.stepDecoded_acc_eq d) fun r => by
    simp only [readReg_stepDecoded, h.1, h.readReg_eq r]
  err := stepDecoded_err_eq d b c
  tc := rfl

/-- An offer answered from one of two blocks with the same data is answered from the other, alike. -/
theorem SameData.exists_take {o : Offer w} {b c b' : Block w pcw} (h : SameData b c) (hb : b.take o = .ok b') :
    ∃ c', c.take o = .ok c' ∧ SameResult b' c' := by
  rcases take_cases hb with ⟨rfl, rfl⟩ | ⟨iw, rfl, rfl⟩ | ⟨text, d, rfl, hd, rfl⟩
  · exact ⟨_, rfl, sameData_of_readReg rfl fun _ => rfl, rfl, rfl⟩
  · exact ⟨_, rfl, h.sameResult_stepDecoded _⟩
  · exact ⟨stepDecoded d c, by simp only [Block.take, executeLine, hd], h.sameResult_stepDecoded d⟩

theorem SameResult.stopsAfter_eq {b c : Block w pcw} (h : SameResult b c) (policy : Config.OnError) :
    stopsAfter policy b = stopsAfter policy c := by
  simp only [stopsAfter, h.err]

/-- Runs from the same data end alike; equal results stop them at the same place (R209, R219). Their results are equal
too, once an offer was answered or when they were equal at the start. -/
theorem SameData.exists_hostRun {policy : Config.OnError} {offers : List (Offer w)} {b c b' : Block w pcw}
    (h : SameData b c) (hb : hostRun policy offers b = .ok b') :
    ∃ c', hostRun policy offers c = .ok c' ∧ SameData b' c' ∧ (SameResult b c ∨ offers ≠ [] → SameResult b' c') := by
  induction offers generalizing b c with
  | nil =>
    obtain rfl : b = b' := by simpa using hb
    exact ⟨c, rfl, h, fun hor => hor.resolve_right (absurd rfl)⟩
  | cons o rest ih =>
    cases hbo : b.take o with
    | error reason => simp [hostRun_cons_error hbo] at hb
    | ok b₁ =>
      obtain ⟨c₁, hco, hsame⟩ := h.exists_take hbo
      rw [hostRun_cons_ok hbo, hsame.stopsAfter_eq policy] at hb
      rw [hostRun_cons_ok hco]
      cases hstop : stopsAfter policy c₁ with
      | true =>
        obtain rfl : b₁ = b' := by simpa [hstop] using hb
        exact ⟨c₁, by simp, hsame.data, fun _ => hsame⟩
      | false =>
        obtain ⟨c', hc, hdata, hres⟩ := ih hsame.data (by simpa [hstop] using hb)
        exact ⟨c', by simpa using hc, hdata, fun _ => hres (.inl hsame)⟩

/-- Settles O59, by the two-run invariant `SameData`. -/
theorem countersAndSignNeverReachTheData : Obligations.CountersAndSignNeverReachTheData := by
  intro w pcw policy offers b c b' h hb
  obtain ⟨c', hc, hdata, hres⟩ := h.exists_hostRun hb
  exact ⟨c', hc, hdata, fun hne => ⟨(hres (.inr hne)).err, (hres (.inr hne)).tc⟩⟩

end Sys2Proof.Machine
end

section
/-! PROOFS: the refinement of 10_state.md R38. A line's decoded instruction is given its meaning on the source's engine
(`Engine.perform`); the engine's dispatch is shown to be that meaning, and the block's `perform` to agree with it. -/

namespace Sys2Proof.Source

open Sys2Proof.Machine

variable {w pcw : Nat}

/-! ### XOR of a word is XOR of its signed value (R165) -/

/-- A negative word is the complement of the word with every bit flipped (R12, R165). -/
theorem sint_of_msb {x : BitVec w} (h : x.msb = true) : sint x = Int.negSucc (~~~x).toNat := by
  have hlt := x.isLt
  rw [sint, BitVec.toInt_eq_msb_cond, if_pos h, BitVec.toNat_not, Int.negSucc_eq]
  omega

theorem sint_of_not_msb {x : BitVec w} (h : x.msb = false) : sint x = Int.ofNat x.toNat :=
  BitVec.toInt_eq_toNat_of_msb h

/-- The ALU's XOR is the source's, on the values the words stand for: it cannot leave the range (R165). -/
theorem sint_aluXor (x y : BitVec w) : sint (aluXor x y) = intXor (sint x) (sint y) := by
  unfold aluXor
  have hmsb : (x ^^^ y).msb = (x.msb ^^ y.msb) := BitVec.msb_xor
  cases hx : x.msb <;> cases hy : y.msb <;> rw [hx, hy] at hmsb
  case false.false =>
    rw [sint_of_not_msb hx, sint_of_not_msb hy, sint_of_not_msb hmsb, BitVec.toNat_xor]
    rfl
  case false.true =>
    rw [sint_of_not_msb hx, sint_of_msb hy, sint_of_msb hmsb, BitVec.not_xor_right, BitVec.toNat_xor]
    rfl
  case true.false =>
    rw [sint_of_msb hx, sint_of_not_msb hy, sint_of_msb hmsb, BitVec.not_xor_left, BitVec.toNat_xor]
    rfl
  case true.true =>
    have hflip : x ^^^ y = ~~~x ^^^ ~~~y := by
      rw [← BitVec.not_xor_left, ← BitVec.not_xor_right, BitVec.not_not]
    rw [sint_of_msb hx, sint_of_msb hy, sint_of_not_msb hmsb, hflip, BitVec.toNat_xor]
    rfl

/-- A literal in range is the value its immediate field reads back as (R68, R77). -/
theorem sint_bitsOf {v : Int} (hw : 1 ≤ w) (h : Codec.InRange w v) : sint (bitsOf w v) = v :=
  BitVec.toInt_ofInt_eq_self hw h.1 h.2

/-! ### The meaning of a decoded instruction on the engine -/

/-- The value of an operand on the engine. -/
def Engine.source (src : Src w) (u : Engine) : Int :=
  match src with
  | .reg r => u.read r
  | .imm v => sint v

/-- What the engine does for a decoded instruction. -/
def Engine.perform (d : Decoded w) (u : Engine) : Engine :=
  match d with
  | .mov imm => { u with acc := sint imm }
  | .save r => u.write r u.acc
  | .add src => u.xorInto (u.source src)
  | .sub src => u.xorInto (u.source src)
  | .unknown => u
  | .fail _ => u

/-- What the literal arm of R71 can give: a literal in range, or a token that is no literal. -/
theorem literalOperand_cases {t : Token} {make : BitVec w → Decoded w} {d : Decoded w}
    (h : literalOperand w t make = .ok d) :
    (∃ v, literalValue t = some v ∧ Codec.InRange w v ∧ d = make (bitsOf w v)) ∨
    (literalValue t = none ∧ d = .fail .invalidOperand) := by
  unfold literalOperand classLit at h
  cases hv : literalValue t with
  | some v =>
    by_cases hr : Codec.InRange w v
    · simp only [hv, if_pos hr, Except.ok.injEq] at h
      exact .inl ⟨v, rfl, hr, h.symm⟩
    · simp [hv, if_neg hr] at h
  | none =>
    cases hu : t.contains '_' with
    | true => simp only [hv, hu, if_true, reduceCtorEq] at h
    | false =>
      simp only [hv, hu, Bool.false_eq_true, if_false, Except.ok.injEq] at h
      exact .inr ⟨rfl, h.symm⟩

/-- What the register-first resolution of R69 can give: an operand of the same value on the engine, or none there too. -/
theorem sourceOperand_cases {t : Token} {make : Src w → Decoded w} {d : Decoded w} (hw : 1 ≤ w) (u : Engine)
    (h : sourceOperand w t make = .ok d) :
    (∃ src, d = make src ∧ u.operand t = some (u.source src)) ∨
    (d = .fail .invalidOperand ∧ u.operand t = none) := by
  unfold sourceOperand at h
  unfold Engine.operand
  cases hr : regNamed t with
  | some r =>
    simp only [hr, Except.ok.injEq] at h
    exact .inl ⟨.reg r, h.symm, rfl⟩
  | none =>
    simp only [hr] at h
    rcases literalOperand_cases h with ⟨v, hv, hrange, rfl⟩ | ⟨hv, rfl⟩
    · exact .inl ⟨.imm (bitsOf w v), rfl, by simp only [hv, Engine.source, sint_bitsOf hw hrange]⟩
    · exact .inr ⟨rfl, hv⟩

/-- On a line with a recognized opcode and an operand, the engine does what the decoded instruction says. -/
theorem dispatch_operand {o : TextOp} {op t : Token} {rest : List Token} {d : Decoded w} (hw : 1 ≤ w)
    (ho : opcodeOf op = some o) (h : decodeOperand w o t = .ok d) (u : Engine) :
    Engine.dispatch (op :: t :: rest) u = u.perform d := by
  unfold Engine.dispatch
  cases o with
  | mov =>
    rcases literalOperand_cases h with ⟨v, hv, hrange, rfl⟩ | ⟨hv, rfl⟩
    · simp only [ho, hv, Engine.perform, sint_bitsOf hw hrange]
    · simp only [ho, hv, Engine.perform]
  | save =>
    unfold decodeOperand at h
    cases hr : regNamed t with
    | some r =>
      obtain rfl : .save r = d := by simpa [hr] using h
      simp only [ho, hr, Engine.perform]
    | none =>
      obtain rfl : .fail .unknownRegister = d := by simpa [hr] using h
      simp only [ho, hr, Engine.perform]
  | add =>
    rcases sourceOperand_cases hw u h with ⟨src, rfl, hsrc⟩ | ⟨rfl, hsrc⟩ <;> simp only [ho, hsrc, Engine.perform]
  | sub =>
    rcases sourceOperand_cases hw u h with ⟨src, rfl, hsrc⟩ | ⟨rfl, hsrc⟩ <;> simp only [ho, hsrc, Engine.perform]

/-- The engine's dispatch on the tokens of an admitted line is the meaning of the line's decoded instruction (R71). -/
theorem dispatch_eq_perform {ts : List Token} {d : Decoded w} (hw : 1 ≤ w) (h : decodeTokens w ts = .ok d)
    (u : Engine) : Engine.dispatch ts u = u.perform d := by
  cases ts with
  | nil =>
    obtain rfl : .fail .malformedInstruction = d := by simpa [decodeTokens] using h
    rfl
  | cons op operands =>
    cases ho : opcodeOf op with
    | none =>
      obtain rfl : .unknown = d := by simpa [decodeTokens, ho] using h
      simp only [Engine.dispatch, ho, Engine.perform]
    | some o =>
      cases operands with
      | nil =>
        obtain rfl : .fail .malformedInstruction = d := by simpa [decodeTokens, ho] using h
        simp only [Engine.dispatch, ho, Engine.perform]
      | cons t rest => exact dispatch_operand hw ho (by simpa only [decodeTokens, ho] using h) u

/-- TextDecode gives an instruction only through the line's tokens (R71). -/
theorem decodeTokens_of_textDecode {line : Line} {d : Decoded w} (h : textDecode w line = .ok d) :
    decodeTokens w (tokenize line) = .ok d := by
  unfold textDecode at h
  split at h
  · exact h
  · cases h

/-! ### Agreement is kept by every operation -/

variable {u : Engine} {b : Block w pcw}

theorem Agrees.read_eq (h : Agrees u b) (r : Reg) : sint (readReg r b) = u.read r := by
  cases r with
  | r1 => exact h.r1
  | r2 => exact h.r2
  | r3 => exact h.r3
  | r4 => exact h.r4

theorem Agrees.source_eq (h : Agrees u b) (src : Src w) : sint (operandMux src b) = u.source src := by
  cases src with
  | reg r => exact h.read_eq r
  | imm v => rfl

theorem Agrees.startStep (h : Agrees u b) : Agrees { u with tc := 0, pc := u.pc + 1 } (startStep b) :=
  { h with
    pc := uint_nextPc_of_count h.pc
    tc := rfl }

theorem Agrees.finishStep (h : Agrees u b) (r : StepResult) : Agrees { u with tc := 1 } (finishStep r b) :=
  { h with tc := rfl }

theorem Agrees.writeAcc (h : Agrees u b) (v : BitVec w) : Agrees { u with acc := sint v } (writeAcc v b) :=
  { h with acc := rfl }

theorem Agrees.saveAcc (h : Agrees u b) (r : Reg) : Agrees (u.write r u.acc) (saveAcc r b) := by
  cases r with
  | r1 => exact { h with r1 := h.acc }
  | r2 => exact { h with r2 := h.acc }
  | r3 => exact { h with r3 := h.acc }
  | r4 => exact { h with r4 := h.acc }

theorem Agrees.xorIntoAcc (h : Agrees u b) (src : Src w) :
    Agrees (u.xorInto (u.source src)) (xorIntoAcc src b) := by
  have hacc : sint (aluXor b.acc (operandMux src b)) = intXor u.acc (u.source src) := by
    rw [sint_aluXor, h.acc, h.source_eq]
  exact { h with
    acc := hacc
    sign := by rw [xorIntoAcc_sign, uint_signOf, hacc]; rfl }

theorem Agrees.perform (h : Agrees u b) (d : Decoded w) : Agrees (u.perform d) (perform d b).1 := by
  cases d with
  | mov imm => exact h.writeAcc imm
  | save r => exact h.saveAcc r
  | add src => exact h.xorIntoAcc src
  | sub src => exact h.xorIntoAcc src
  | unknown => exact h
  | fail k => exact h

/-- The commuting diagram of one line (R38, R121). -/
theorem Agrees.execute {line : Line} {d : Decoded w} (hw : 1 ≤ w) (h : Agrees u b)
    (hd : textDecode w line = .ok d) : Agrees (u.execute line) (stepDecoded d b) := by
  unfold Engine.execute
  rw [dispatch_eq_perform hw (decodeTokens_of_textDecode hd)]
  exact (h.startStep.perform d).finishStep _

/-- Settles O57: every field of either is 0. -/
theorem initialSourceEngineAgreesWithReset : Obligations.InitialSourceEngineAgreesWithReset := by
  intro w pcw
  constructor <;> simp [Engine.initial]

/-- Settles O58, by induction on the program: each line is one commuting diagram. -/
theorem blockRefinesTheUnboundedSourceEngine : Obligations.BlockRefinesTheUnboundedSourceEngine := by
  intro w pcw program u b hw hagree hadm
  induction program generalizing u b with
  | nil => exact ⟨b, rfl, hagree⟩
  | cons line rest ih =>
    obtain ⟨hline, hrest⟩ : lineAdmitted w line = true ∧ programAdmitted w rest = true := by
      simpa only [programAdmitted, List.all_cons, Bool.and_eq_true] using hadm
    rcases executeLine_cases line b with ⟨reason, hd, -⟩ | ⟨d, hd, hx⟩
    · simp [lineAdmitted, hd] at hline
    · have htake : b.take (.line line) = .ok (stepDecoded d b) := hx
      have hrun : hostRun .skip ((line :: rest).map .line) b = hostRun .skip (rest.map .line) (stepDecoded d b) := by
        simp [hostRun_cons_ok htake]
      rw [hrun, List.foldl_cons]
      exact ih _ _ (hagree.execute hw hd) hrest

end Sys2Proof.Source
end

section
/-! PROOFS: the family 30_encoding.md, level B. The fields of a word written out by its fields, what each OPC decodes to
on such words, the canonical words as such words, and from these the decoders, the encoder and the opcode table. -/

namespace Sys2Proof

open Sys2Proof.Machine

variable {w pcw : Nat}

/-! ### The fields of a word (R75) -/

/-- CTRL written out by its fields (R75). -/
def ctrlByte (opc : BitVec 3) (s : BitVec 1) (k rs : BitVec 2) : BitVec 8 := opc ++ s ++ k ++ rs

section Fields

variable (opc : BitVec 3) (s : BitVec 1) (k rs : BitVec 2) (imm : BitVec w)

@[simp] theorem ctrlOf_fieldWord : ctrlOf (fieldWord opc s k rs imm) = ctrlByte opc s k rs := ctrlOf_wordOf _ imm

@[simp] theorem immOf_fieldWord : immOf (fieldWord opc s k rs imm) = imm := immOf_wordOf _ imm

@[simp] theorem opcOf_ctrlByte : opcOf (ctrlByte opc s k rs) = opc := by
  revert opc s k rs
  decide

@[simp] theorem sOf_ctrlByte : sOf (ctrlByte opc s k rs) = s := by
  revert opc s k rs
  decide

@[simp] theorem kOf_ctrlByte : kOf (ctrlByte opc s k rs) = k := by
  revert opc s k rs
  decide

@[simp] theorem rsOf_ctrlByte : rsOf (ctrlByte opc s k rs) = rs := by
  revert opc s k rs
  decide

/-! ### What a word decodes to, by its OPC (R79) -/

theorem decodeWord_opc000 : decodeWord (fieldWord 0b000#3 s k rs imm) = .mov imm := by
  simp [decodeWord]

theorem decodeWord_opc001 : decodeWord (fieldWord 0b001#3 s k rs imm) = .save (Reg.ofIndex rs) := by
  simp [decodeWord]

theorem decodeWord_opc010_reg : decodeWord (fieldWord 0b010#3 0#1 k rs imm) = .add (.reg (Reg.ofIndex rs)) := by
  simp [decodeWord, srcOf]

theorem decodeWord_opc010_imm : decodeWord (fieldWord 0b010#3 1#1 k rs imm) = .add (.imm imm) := by
  simp [decodeWord, srcOf]

theorem decodeWord_opc011_reg : decodeWord (fieldWord 0b011#3 0#1 k rs imm) = .sub (.reg (Reg.ofIndex rs)) := by
  simp [decodeWord, srcOf]

theorem decodeWord_opc011_imm : decodeWord (fieldWord 0b011#3 1#1 k rs imm) = .sub (.imm imm) := by
  simp [decodeWord, srcOf]

theorem decodeWord_opc100_k00 : decodeWord (fieldWord 0b100#3 s 0b00#2 rs imm) = .unknown := by
  simp [decodeWord]

/-- In an ERR word, K is the code of the error (R76, R200). -/
theorem decodeWord_opc100_fail (kind : FailKind) :
    decodeWord (fieldWord 0b100#3 s (failCode kind) rs imm) = .fail kind := by
  cases kind <;> simp [decodeWord, failCode]

theorem decodeWord_opc101 : decodeWord (fieldWord 0b101#3 s k rs imm) = .unknown := by
  simp [decodeWord]

theorem decodeWord_opc110 : decodeWord (fieldWord 0b110#3 s k rs imm) = .unknown := by
  simp [decodeWord]

theorem decodeWord_opc111 : decodeWord (fieldWord 0b111#3 s k rs imm) = .unknown := by
  simp [decodeWord]

end Fields

/-- Settles O23, by the lemma of each OPC. -/
theorem decodeOfEveryWordByItsFields : Obligations.DecodeOfEveryWordByItsFields := by
  intro w s k rs imm
  exact ⟨decodeWord_opc000 s k rs imm, decodeWord_opc001 s k rs imm,
    decodeWord_opc010_reg k rs imm, decodeWord_opc010_imm k rs imm,
    decodeWord_opc011_reg k rs imm, decodeWord_opc011_imm k rs imm,
    decodeWord_opc100_k00 s rs imm, decodeWord_opc100_fail s rs imm .invalidOperand,
    decodeWord_opc100_fail s rs imm .unknownRegister, decodeWord_opc100_fail s rs imm .malformedInstruction,
    decodeWord_opc101 s k rs imm, decodeWord_opc110 s k rs imm, decodeWord_opc111 s k rs imm, rfl, rfl, rfl, rfl⟩

/-! ### The canonical words (R82) -/

/-- Adding a register's index to a control byte with RS = 00 writes it into RS (R82). -/
theorem ctrlWithReg_ctrlByte (opc : BitVec 3) (r : Reg) :
    ctrlWithReg (ctrlByte opc 0 0 0) r = ctrlByte opc 0 0 r.index := by
  cases r <;> revert opc <;> decide

/-- Each canonical word by its fields, every field its instruction does not use being 0 (R80, R82). -/
theorem asm_eq_fieldWord (d : Decoded w) :
    asm d =
      match d with
      | .mov imm => fieldWord 0b000#3 0 0 0 imm
      | .save r => fieldWord 0b001#3 0 0 r.index 0#w
      | .add (.reg r) => fieldWord 0b010#3 0 0 r.index 0#w
      | .add (.imm imm) => fieldWord 0b010#3 1 0 0 imm
      | .sub (.reg r) => fieldWord 0b011#3 0 0 r.index 0#w
      | .sub (.imm imm) => fieldWord 0b011#3 1 0 0 imm
      | .fail kind => fieldWord 0b100#3 0 (failCode kind) 0 0#w
      | .unknown => fieldWord 0b111#3 0 0 0 0#w := by
  cases d with
  | mov imm => rfl
  | save r => exact congrArg (wordOf · 0#w) (ctrlWithReg_ctrlByte 0b001#3 r)
  | add src =>
    cases src with
    | reg r => exact congrArg (wordOf · 0#w) (ctrlWithReg_ctrlByte 0b010#3 r)
    | imm imm => rfl
  | sub src =>
    cases src with
    | reg r => exact congrArg (wordOf · 0#w) (ctrlWithReg_ctrlByte 0b011#3 r)
    | imm imm => rfl
  | unknown => rfl
  | fail kind => cases kind <;> rfl

/-- Decode inverts the assembler (R82). -/
@[simp] theorem decodeWord_asm (d : Decoded w) : decodeWord (asm d) = d := by
  rw [asm_eq_fieldWord]
  cases d with
  | mov imm => exact decodeWord_opc000 _ _ _ imm
  | save r => simpa using decodeWord_opc001 0 0 r.index 0#w
  | add src =>
    cases src with
    | reg r => simpa using decodeWord_opc010_reg 0 r.index 0#w
    | imm imm => exact decodeWord_opc010_imm _ _ imm
  | sub src =>
    cases src with
    | reg r => simpa using decodeWord_opc011_reg 0 r.index 0#w
    | imm imm => exact decodeWord_opc011_imm _ _ imm
  | unknown => exact decodeWord_opc111 _ _ _ _
  | fail kind => exact decodeWord_opc100_fail _ _ _ kind

/-- A word as a number (R75). -/
theorem uint_wordOf (ctrl : BitVec 8) (imm : BitVec w) :
    uint (wordOf ctrl imm) = uint ctrl * 2 ^ w + uint imm := by
  rw [wordOf, uint, BitVec.toNat_append, ← Nat.shiftLeft_add_eq_or_of_lt imm.isLt, Nat.shiftLeft_eq]

/-- The index does not carry out of a control byte (R82). -/
theorem uint_ctrlWithReg {base : BitVec 8} (r : Reg) (h : uint base ≤ 0xFC) :
    uint (ctrlWithReg base r) = uint base + uint r.index := by
  have hr := r.index.isLt
  simp only [uint, ctrlWithReg, BitVec.truncate_eq_setWidth, BitVec.toNat_add, BitVec.toNat_setWidth] at h ⊢
  omega

/-- The canonical word of a register form as a number (R82). -/
theorem uint_wordOf_ctrlWithReg {base : BitVec 8} (r : Reg) (h : uint base ≤ 0xFC) :
    uint (wordOf (ctrlWithReg base r) 0#w) = (uint base + uint r.index) * 2 ^ w := by
  rw [uint_wordOf, uint_ctrlWithReg r h]
  simp

/-- Settles O24: a canonical word's number is read off its two fields. -/
theorem decodeInvertsTheAssembler : Obligations.DecodeInvertsTheAssembler := by
  refine ⟨fun w d => decodeWord_asm d, fun w imm r => ?_, by decide, by decide, by decide⟩
  have hzero (ctrl : BitVec 8) : uint (wordOf ctrl 0#w) = uint ctrl * 2 ^ w := by simp [uint_wordOf]
  exact ⟨uint_wordOf _ imm, uint_wordOf_ctrlWithReg r (by decide), uint_wordOf_ctrlWithReg r (by decide),
    uint_wordOf _ imm, uint_wordOf_ctrlWithReg r (by decide), uint_wordOf _ imm,
    hzero _, hzero _, hzero _, hzero _⟩

/-- Settles O25: an OPC's lemma does not mention the fields that its words ignore. -/
theorem ignoredFieldsHaveNoEffect : Obligations.IgnoredFieldsHaveNoEffect := by
  refine ⟨fun w s s' k k' rs rs' imm imm' => ⟨?mov, ?save, ?addSub, ?err, ?unknown⟩, fun a b s h => ?rows,
    fun w pcw a a' b h => by rw [stepWord, stepWord, h], fun w imm r f => ?canonical⟩
  case mov => rw [decodeWord_opc000, decodeWord_opc000]
  case save => rw [decodeWord_opc001, decodeWord_opc001]
  case addSub =>
    rintro opc (rfl | rfl)
    · rw [decodeWord_opc010_reg, decodeWord_opc010_reg, decodeWord_opc010_imm, decodeWord_opc010_imm]
      exact ⟨rfl, rfl⟩
    · rw [decodeWord_opc011_reg, decodeWord_opc011_reg, decodeWord_opc011_imm, decodeWord_opc011_imm]
      exact ⟨rfl, rfl⟩
  case err => simp [decodeWord]
  case unknown =>
    rintro opc (rfl | rfl | rfl)
    · rw [decodeWord_opc101, decodeWord_opc101]
    · rw [decodeWord_opc110, decodeWord_opc110]
    · rw [decodeWord_opc111, decodeWord_opc111]
  case rows => rw [exec_eq_stepDecoded, exec_eq_stepDecoded, decoded_decode, decoded_decode, h]
  case canonical =>
    exact ⟨asm_eq_fieldWord _, asm_eq_fieldWord _, asm_eq_fieldWord _, asm_eq_fieldWord _, asm_eq_fieldWord _,
      asm_eq_fieldWord _, asm_eq_fieldWord _, asm_eq_fieldWord _⟩

/-! ### The decoder by rows of the opcode table -/

/-- Settles O26, row by row: the encoder's control byte leads the decoder back to the row, and its operands are read
from the fields where the encoder put them. -/
theorem decodeInvertsEncodeOnEveryRow : Obligations.DecodeInvertsEncodeOnEveryRow := by
  intro i
  cases i with
  | save r | addR r | subR r => cases r <;> simp only [encode, decode, ctrlOf_wordOf] <;> rfl
  | mov imm | addI imm | subI imm => simp only [encode, decode, ctrlOf_wordOf, immOf_wordOf]; rfl
  | _ => rfl

/-- Settles O27, by the lemma that `exec`'s step is read through. -/
theorem decoderByRowsAgreesWithDecode : Obligations.DecoderByRowsAgreesWithDecode := decoded_decode

theorem ctrlByte_inj {opc opc' : BitVec 3} {s s' : BitVec 1} {k k' rs rs' : BitVec 2} :
    ctrlByte opc s k rs = ctrlByte opc' s' k' rs' ↔ opc = opc' ∧ s = s' ∧ k = k' ∧ rs = rs' := by
  refine ⟨fun h => ⟨?_, ?_, ?_, ?_⟩, fun ⟨ho, hs, hk, hr⟩ => by rw [ho, hs, hk, hr]⟩
  · simpa using congrArg opcOf h
  · simpa using congrArg sOf h
  · simpa using congrArg kOf h
  · simpa using congrArg rsOf h

/-- A row with mask E0 looks at OPC alone. -/
@[simp] theorem holds_maskE0 (name : String) (opc : BitVec 3) (ctrl : BitVec 8) :
    (⟨name, ctrlByte opc 0#1 0#2 0#2, 0xE0#8⟩ : Row).holds ctrl = decide (opcOf ctrl = opc) := by
  have hmask : ∀ c : BitVec 8, c &&& 0xE0#8 = ctrlByte (opcOf c) 0#1 0#2 0#2 := by decide
  simp [Row.holds, hmask, ctrlByte_inj, Bool.beq_eq_decide_eq]

/-- A row with mask F0 looks at OPC and S. -/
@[simp] theorem holds_maskF0 (name : String) (opc : BitVec 3) (s : BitVec 1) (ctrl : BitVec 8) :
    (⟨name, ctrlByte opc s 0#2 0#2, 0xF0#8⟩ : Row).holds ctrl = decide (opcOf ctrl = opc ∧ sOf ctrl = s) := by
  have hmask : ∀ c : BitVec 8, c &&& 0xF0#8 = ctrlByte (opcOf c) (sOf c) 0#2 0#2 := by decide
  simp [Row.holds, hmask, ctrlByte_inj, Bool.beq_eq_decide_eq]

/-- A row with mask EC looks at OPC and K. -/
@[simp] theorem holds_maskEC (name : String) (opc : BitVec 3) (k : BitVec 2) (ctrl : BitVec 8) :
    (⟨name, ctrlByte opc 0#1 k 0#2, 0xEC#8⟩ : Row).holds ctrl = decide (opcOf ctrl = opc ∧ kOf ctrl = k) := by
  have hmask : ∀ c : BitVec 8, c &&& 0xEC#8 = ctrlByte (opcOf c) 0#1 (kOf c) 0#2 := by decide
  simp [Row.holds, hmask, ctrlByte_inj, Bool.beq_eq_decide_eq]

/-- The opcode table with its match values written by fields (R76). -/
theorem opcodeTable_eq : opcodeTable = [
    ⟨"mov", ctrlByte 0b000#3 0#1 0#2 0#2, 0xE0#8⟩,
    ⟨"save", ctrlByte 0b001#3 0#1 0#2 0#2, 0xE0#8⟩,
    ⟨"add.r", ctrlByte 0b010#3 0#1 0#2 0#2, 0xF0#8⟩,
    ⟨"add.i", ctrlByte 0b010#3 1#1 0#2 0#2, 0xF0#8⟩,
    ⟨"sub.r", ctrlByte 0b011#3 0#1 0#2 0#2, 0xF0#8⟩,
    ⟨"sub.i", ctrlByte 0b011#3 1#1 0#2 0#2, 0xF0#8⟩,
    ⟨".err_InvalidOperand", ctrlByte 0b100#3 0#1 0b01#2 0#2, 0xEC#8⟩,
    ⟨".err_UnknownRegister", ctrlByte 0b100#3 0#1 0b10#2 0#2, 0xEC#8⟩,
    ⟨".err_MalformedInstruction", ctrlByte 0b100#3 0#1 0b11#2 0#2, 0xEC#8⟩,
    ⟨".unk__OPC_100__K_00", ctrlByte 0b100#3 0#1 0b00#2 0#2, 0xEC#8⟩,
    ⟨".unk__OPC_101", ctrlByte 0b101#3 0#1 0#2 0#2, 0xE0#8⟩,
    ⟨".unk__OPC_110", ctrlByte 0b110#3 0#1 0#2 0#2, 0xE0#8⟩,
    ⟨".unk__OPC_111", ctrlByte 0b111#3 0#1 0#2 0#2, 0xE0#8⟩] := rfl

/-- Settles O28: a row looks at OPC, at OPC and S, or at OPC and K; the decoder's branches on these three fields are the
rows. -/
theorem everyWordMatchesExactlyItsRow : Obligations.EveryWordMatchesExactlyItsRow := by
  intro iw
  unfold decode
  split <;> rename_i hopc
  case h_3 | h_4 =>
    rcases BitVec.eq_zero_or_eq_one (sOf (ctrlOf iw)) with hs | hs <;>
      simp [opcodeTable_eq, hopc, hs, Instr.mnemonic]
  case h_5 =>
    split <;> rename_i hk <;> simp [opcodeTable_eq, hopc, hk, Instr.mnemonic]
  all_goals simp [opcodeTable_eq, hopc, Instr.mnemonic]

end Sys2Proof
end

section
/-! PROOFS: the family 30_encoding.md, level T. The character classes, the tokenizer, names and literals, one lemma each
that says when a value is answered; then TextDecode on a line whose tokens are known, and the disassembly read back. -/

namespace Sys2Proof

open Sys2Proof.Machine

variable {w pcw : Nat}

/-! ### Characters (R62) -/

theorem isWhitespace_iff (c : Char) :
    isWhitespace c = true ↔ c.toNat ∈ [0x09, 0x0A, 0x0B, 0x0C, 0x0D, 0x20] := by
  simp only [isWhitespace, Bool.or_eq_true, Bool.and_eq_true, decide_eq_true_eq, beq_iff_eq, List.mem_cons,
    List.not_mem_nil, or_false]
  omega

theorem isPrintable_iff (c : Char) : isPrintable c = true ↔ 0x21 ≤ c.toNat ∧ c.toNat ≤ 0x7E := by
  simp only [isPrintable, Bool.and_eq_true, decide_eq_true_eq]

theorem isDigit_iff (c : Char) : isDigit c = true ↔ 0x30 ≤ c.toNat ∧ c.toNat ≤ 0x39 := by
  simp only [isDigit, Bool.and_eq_true, decide_eq_true_eq]

/-- The characters R62 refuses. -/
theorem inCharset_eq_false_iff (c : Char) : inCharset c = false ↔
    0x80 ≤ c.toNat ∨ c.toNat ≤ 0x08 ∨ (0x0E ≤ c.toNat ∧ c.toNat ≤ 0x1F) ∨ c.toNat = 0x7F := by
  rw [← Bool.not_eq_true, inCharset, Bool.or_eq_true, isWhitespace_iff, isPrintable_iff]
  simp only [List.mem_cons, List.not_mem_nil, or_false]
  omega

theorem isWhitespace_of_isPrintable {c : Char} (h : isPrintable c = true) : isWhitespace c = false := by
  rw [isPrintable_iff] at h
  rw [← Bool.not_eq_true, isWhitespace_iff]
  simp only [List.mem_cons, List.not_mem_nil, or_false]
  omega

theorem isPrintable_of_isDigit {c : Char} (h : isDigit c = true) : isPrintable c = true := by
  rw [isDigit_iff] at h
  rw [isPrintable_iff]
  omega

/-! ### The tokenizer (R63) -/

theorem tokenize_gap_append {gap : Line} (h : ∀ c ∈ gap, isWhitespace c = true) (rest : Line) :
    tokenize (gap ++ rest) = tokenize rest := by
  induction gap with
  | nil => rfl
  | cons c cs ih =>
    obtain ⟨hc, hcs⟩ := List.forall_mem_cons.1 h
    rw [List.cons_append, tokenize, if_pos hc, ih hcs]

theorem beginsToken_eq_false_iff (l : Line) : beginsToken l = false ↔ ∀ c ∈ l.head?, isWhitespace c = true := by
  cases l <;> simp [beginsToken]

/-- A run of non-whitespace characters that ends where the line ends or whitespace follows is the first token. -/
theorem tokenize_token_append {token rest : Line} (hne : token ≠ []) (h : ∀ c ∈ token, isWhitespace c = false)
    (hrest : ∀ c ∈ rest.head?, isWhitespace c = true) : tokenize (token ++ rest) = token :: tokenize rest := by
  induction token with
  | nil => exact absurd rfl hne
  | cons c cs ih =>
    obtain ⟨hc, hcs⟩ := List.forall_mem_cons.1 h
    cases cs with
    | nil => simp [tokenize, hc, (beginsToken_eq_false_iff rest).2 hrest]
    | cons d ds =>
      have hd : isWhitespace d = false := hcs d List.mem_cons_self
      have hbegins : beginsToken (d :: ds ++ rest) = true := by simp [beginsToken, hd]
      rw [List.cons_append, tokenize, if_neg (by simp [hc]), if_pos hbegins, ih (List.cons_ne_nil d ds) hcs]
      rfl

/-- Settles O32: whitespace is skipped, and then a run is taken whole. -/
theorem tokenizeTakesTheMaximalRuns : Obligations.TokenizeTakesTheMaximalRuns := by
  refine ⟨fun gap hgap => ?_, fun gap token rest hgap hne htok hrest => ?_⟩
  · simpa [tokenize] using tokenize_gap_append hgap []
  · rw [List.append_assoc, tokenize_gap_append hgap, tokenize_token_append hne htok hrest]

/-! ### Names (R64, R65) -/

theorem regNamed_eq_some_iff (t : Token) (r : Reg) : regNamed t = some r ↔ t = r.name := by
  refine ⟨fun h => ?_, fun h => h ▸ regNamed_name r⟩
  unfold regNamed at h
  split_ifs at h with h1 h2 h3 h4 <;> cases h <;> assumption

/-- The spelling of a recognized opcode (R64). -/
def TextOp.name (o : TextOp) : Token :=
  match o with
  | .mov => ['m', 'o', 'v']
  | .save => ['s', 'a', 'v', 'e']
  | .add => ['a', 'd', 'd']
  | .sub => ['s', 'u', 'b']

@[simp] theorem opcodeOf_name (o : TextOp) : opcodeOf o.name = some o := by cases o <;> rfl

theorem opcodeOf_eq_some_iff (t : Token) (o : TextOp) : opcodeOf t = some o ↔ t = o.name := by
  refine ⟨fun h => ?_, fun h => h ▸ opcodeOf_name o⟩
  unfold opcodeOf at h
  split_ifs at h with h1 h2 h3 h4 <;> cases h <;> assumption

theorem takesLiteral_iff (op : Token) : takesLiteral op ↔ ∃ o, opcodeOf op = some o ∧ o ≠ .save := by
  simp only [opcodeOf_eq_some_iff]
  constructor
  · rintro (h | h | h)
    · exact ⟨.mov, h, nofun⟩
    · exact ⟨.add, h, nofun⟩
    · exact ⟨.sub, h, nofun⟩
  · rintro ⟨o, h, hne⟩
    cases o with
    | mov => exact .inl h
    | save => exact absurd rfl hne
    | add => exact .inr (.inl h)
    | sub => exact .inr (.inr h)

theorem isRecognized_iff (op : Token) : isRecognized op ↔ ∃ o, opcodeOf op = some o := by
  rw [isRecognized, takesLiteral_iff]
  constructor
  · rintro (⟨o, ho, -⟩ | h)
    · exact ⟨o, ho⟩
    · exact ⟨.save, (opcodeOf_eq_some_iff op .save).2 h⟩
  · rintro ⟨o, ho⟩
    by_cases hsave : o = .save
    · exact .inr ((opcodeOf_eq_some_iff op .save).1 (hsave ▸ ho))
    · exact .inl ⟨o, ho, hsave⟩

theorem opcodeOf_eq_none_iff (op : Token) : opcodeOf op = none ↔ ¬ isRecognized op := by
  rw [isRecognized_iff, Option.eq_none_iff_forall_ne_some, not_exists]

/-! ### Literals (R66) -/

/-- The value of a digit string, by Mathlib's `Nat.ofDigits`, which takes the last digit first. -/
theorem foldl_digits_eq_ofDigits (t : Token) :
    t.foldl (fun n c => 10 * n + (c.toNat - 0x30)) 0 = Nat.ofDigits 10 (t.reverse.map fun c => c.toNat - 0x30) := by
  rw [Nat.ofDigits_eq_foldr, List.foldr_map, List.foldl_eq_foldr_reverse]
  simp [Nat.add_comm]

theorem digitsValue_eq_some_iff (t : Token) (n : Nat) : digitsValue t = some n ↔
    t ≠ [] ∧ (∀ c ∈ t, isDigit c = true) ∧ n = Nat.ofDigits 10 (t.reverse.map fun c => c.toNat - 0x30) := by
  have hguard : (!t.isEmpty && t.all isDigit) = true ↔ t ≠ [] ∧ ∀ c ∈ t, isDigit c = true := by simp
  rw [← foldl_digits_eq_ofDigits, digitsValue, Option.ite_none_right_eq_some, hguard, Option.some.injEq, and_assoc]
  simp only [eq_comm (b := n)]

/-- No digit is a sign, so a token of digits is read without one (R66). -/
theorem literalValue_of_digits {t : Token} (h : ∀ c ∈ t, isDigit c = true) :
    literalValue t = (digitsValue t).map fun (n : Nat) => (n : Int) := by
  unfold literalValue
  split
  · exact absurd (h '-' List.mem_cons_self) (by decide)
  · exact absurd (h '+' List.mem_cons_self) (by decide)
  · rfl

/-- A literal is a sign and digits, and its value is the digits' value with that sign (R66). -/
theorem literalValue_eq_some_iff (t : Token) (v : Int) : literalValue t = some v ↔
    ∃ sgn ds : Token, ∃ n : Nat, t = sgn ++ ds ∧ (sgn = [] ∨ sgn = ['+'] ∨ sgn = ['-']) ∧ digitsValue ds = some n ∧
      v = (if sgn = ['-'] then -1 else 1) * (n : Int) := by
  constructor
  · intro h
    unfold literalValue at h
    split at h <;> obtain ⟨n, hn, rfl⟩ := Option.map_eq_some_iff.1 h
    · exact ⟨['-'], _, n, rfl, by simp, hn, by simp⟩
    · exact ⟨['+'], _, n, rfl, by simp, hn, by simp⟩
    · exact ⟨[], _, n, rfl, by simp, hn, by simp⟩
  · rintro ⟨sgn, ds, n, rfl, rfl | rfl | rfl, hn, rfl⟩
    · obtain ⟨-, hdig, -⟩ := (digitsValue_eq_some_iff ds n).1 hn
      simp [literalValue_of_digits hdig, hn]
    · simp [literalValue, hn]
    · simp [literalValue, hn]

/-- Settles O33: the digits' value is written out. -/
theorem literalsAreSignedDecimalNumbers : Obligations.LiteralsAreSignedDecimalNumbers := by
  intro t v
  simp only [literalValue_eq_some_iff, digitsValue_eq_some_iff, isDigit_iff]
  constructor
  · rintro ⟨sgn, ds, n, ht, hsgn, ⟨hne, hdig, rfl⟩, hv⟩
    exact ⟨sgn, ds, ht, hsgn, hne, hdig, hv⟩
  · rintro ⟨sgn, ds, ht, hsgn, hne, hdig, hv⟩
    exact ⟨sgn, ds, _, ht, hsgn, ⟨hne, hdig, rfl⟩, hv⟩

/-! ### Classes of an operand token (R67, R68) -/

theorem classLit_of_literal {t : Token} {v : Int} (h : literalValue t = some v) :
    classLit w t = if Codec.InRange w v then .lit v else .outOfRange := by
  simp only [classLit, h]

theorem classLit_of_no_literal {t : Token} (h : literalValue t = none) :
    classLit w t = if '_' ∈ t then .unsettled else .notLit := by
  simp only [classLit, h, List.contains_iff_mem]

/-- A register name is no literal and holds no underscore (R67, R69). -/
theorem classLit_name (r : Reg) : classLit w r.name = .notLit := by
  cases r <;> exact classLit_of_no_literal (by decide)

theorem regNamed_eq_none_of_classLit {t : Token} (h : classLit w t ≠ .notLit) : regNamed t = none := by
  refine Option.eq_none_iff_forall_ne_some.2 fun r hr => h ?_
  rw [(regNamed_eq_some_iff t r).1 hr, classLit_name]

/-! ### TextDecode on a line whose tokens are known (R71) -/

section Tokens

variable {line : Line} {op t : Token} {rest : List Token} {o : TextOp}

theorem textDecode_of_inCharset (h : line.all inCharset = true) :
    textDecode w line = decodeTokens w (tokenize line) := if_pos h

theorem textDecode_unrecognized (h : line.all inCharset = true) (htok : tokenize line = op :: rest)
    (hop : ¬ isRecognized op) : textDecode w line = .ok .unknown := by
  simp only [textDecode_of_inCharset h, htok, decodeTokens, (opcodeOf_eq_none_iff op).2 hop]

theorem textDecode_operand (h : line.all inCharset = true) (htok : tokenize line = op :: t :: rest)
    (ho : opcodeOf op = some o) : textDecode w line = decodeOperand w o t := by
  simp only [textDecode_of_inCharset h, htok, decodeTokens, ho]

/-- Where a literal is possible, every token but those of class `notLit` goes to the literal arm (R67, R69). -/
theorem textDecode_literal (h : line.all inCharset = true) (htok : tokenize line = op :: t :: rest)
    (hop : takesLiteral op) (hclass : classLit w t ≠ .notLit) :
    ∃ make : BitVec w → Decoded w, textDecode w line = literalOperand w t make := by
  obtain ⟨o, ho, hne⟩ := (takesLiteral_iff op).1 hop
  rw [textDecode_operand h htok ho]
  have hreg := regNamed_eq_none_of_classLit hclass
  cases o with
  | mov => exact ⟨.mov, rfl⟩
  | save => exact absurd rfl hne
  | add => exact ⟨fun v => .add (.imm v), by simp only [decodeOperand, sourceOperand, hreg]⟩
  | sub => exact ⟨fun v => .sub (.imm v), by simp only [decodeOperand, sourceOperand, hreg]⟩

/-- The operand rules never answer Unknown, and never refuse a line for a character (R71). -/
theorem literalOperand_ne {make : BitVec w → Decoded w} (hmake : ∀ v, make v ≠ .unknown) :
    literalOperand w t make ≠ .ok .unknown ∧ literalOperand w t make ≠ .error .charset := by
  unfold literalOperand
  split <;> simp [hmake]

theorem sourceOperand_ne {make : Src w → Decoded w} (hmake : ∀ src, make src ≠ .unknown) :
    sourceOperand w t make ≠ .ok .unknown ∧ sourceOperand w t make ≠ .error .charset := by
  unfold sourceOperand
  split
  · simp [hmake]
  · exact literalOperand_ne fun v => hmake (.imm v)

theorem decodeOperand_ne : decodeOperand w o t ≠ .ok .unknown ∧ decodeOperand w o t ≠ .error .charset := by
  cases o with
  | mov => exact literalOperand_ne fun v => nofun
  | save =>
    simp only [decodeOperand]
    split <;> simp
  | add => exact sourceOperand_ne fun src => nofun
  | sub => exact sourceOperand_ne fun src => nofun

/-- No list of tokens is refused for a character (R204: that check comes first). -/
theorem decodeTokens_ne_charset (ts : List Token) : decodeTokens w ts ≠ .error .charset := by
  cases ts with
  | nil => simp [decodeTokens]
  | cons op operands =>
    cases ho : opcodeOf op with
    | none => simp [decodeTokens, ho]
    | some o =>
      cases operands with
      | nil => simp [decodeTokens, ho]
      | cons t rest => simpa only [decodeTokens, ho] using decodeOperand_ne.2

/-- An opcode alone is malformed, and with an operand it is never Unknown (R71). -/
theorem decodeTokens_recognized_ne_unknown (hop : isRecognized op) : decodeTokens w (op :: rest) ≠ .ok .unknown := by
  obtain ⟨o, ho⟩ := (isRecognized_iff op).1 hop
  cases rest with
  | nil => simp [decodeTokens, ho]
  | cons t ts => simpa only [decodeTokens, ho] using decodeOperand_ne.1

end Tokens

theorem textDecode_eq_charset_iff (line : Line) : textDecode w line = .error .charset ↔
    ∃ c ∈ line, 0x80 ≤ c.toNat ∨ c.toNat ≤ 0x08 ∨ (0x0E ≤ c.toNat ∧ c.toNat ≤ 0x1F) ∨ c.toNat = 0x7F := by
  simp only [← inCharset_eq_false_iff]
  cases h : line.all inCharset with
  | true =>
    have hall := List.all_eq_true.1 h
    simp +contextual [textDecode_of_inCharset h, decodeTokens_ne_charset, hall]
  | false =>
    have hbad : ∃ c ∈ line, inCharset c = false := by simpa using h
    simp [textDecode, h, hbad]

theorem executeLine_eq_error_iff (line : Line) (b : Block w pcw) (reason : LineRefusal) :
    executeLine line b = .error reason ↔ textDecode w line = .error reason := by
  rcases executeLine_cases line b with ⟨e, hd, hx⟩ | ⟨d, hd, hx⟩ <;> simp [hd, hx]

/-- Settles O31: a line is executed exactly as TextDecode reads it, so it is refused for the same characters. -/
theorem characterSetOfALine : Obligations.CharacterSetOfALine :=
  ⟨isWhitespace_iff, fun _ line => textDecode_eq_charset_iff line,
    fun _ _ line b => (executeLine_eq_error_iff line b .charset).trans (textDecode_eq_charset_iff line)⟩

/-- Settles O34: a name's match is read both ways, and a recognized opcode's rules never answer Unknown. -/
theorem namesAreMatchedExactly : Obligations.NamesAreMatchedExactly := by
  refine ⟨fun t => ?registers, fun t => ?opcodes,
    fun w line op rest h htok => ⟨fun hd hop => ?recognized, textDecode_unrecognized h htok⟩⟩
  case registers =>
    have hname := regNamed_eq_some_iff t
    exact ⟨hname .r1, hname .r2, hname .r3, hname .r4⟩
  case opcodes =>
    have hname := opcodeOf_eq_some_iff t
    exact ⟨hname .mov, hname .save, hname .add, hname .sub⟩
  case recognized =>
    rw [textDecode_of_inCharset h, htok] at hd
    exact decodeTokens_recognized_ne_unknown hop hd

/-- Settles O35: a token that has a value is `lit` or `outOfRange` by its range, any other `unsettled` or `notLit` by its
underscore. -/
theorem classesOfAnOperandToken : Obligations.ClassesOfAnOperandToken := by
  intro w t
  suffices hclasses : (∀ v, classLit w t = .lit v ↔ literalValue t = some v ∧ Codec.InRange w v) ∧
      (classLit w t = .outOfRange ↔ ∃ v, literalValue t = some v ∧ ¬Codec.InRange w v) ∧
      (classLit w t = .unsettled ↔ literalValue t = none ∧ '_' ∈ t) ∧
      (classLit w t = .notLit ↔ literalValue t = none ∧ '_' ∉ t) by
    obtain ⟨hlit, hout, huns, hnot⟩ := hclasses
    refine ⟨hlit, hout, huns, hnot, fun hclass line op rest h htok hop => ?_⟩
    obtain ⟨make, hmake⟩ := textDecode_literal (w := w) h htok hop (by simp [hclass])
    simp only [hmake, literalOperand, hclass]
  cases hv : literalValue t with
  | some u =>
    by_cases hr : Codec.InRange w u
    · have hclass : classLit w t = .lit u := by rw [classLit_of_literal hv, if_pos hr]
      simpa [hclass] using hr
    · have hclass : classLit w t = .outOfRange := by rw [classLit_of_literal hv, if_neg hr]
      simpa [hclass] using hr
  | none => by_cases hu : '_' ∈ t <;> simp [classLit_of_no_literal hv, hu]

/-- Settles O36: a literal's class is decided by its range alone. -/
theorem outOfRangeLiteralsAreRefused : Obligations.OutOfRangeLiteralsAreRefused := by
  refine ⟨fun w line op t rest v h htok hop hv => ?_, fun v => ?_, fun v => ?_⟩
  · have hclass := classLit_of_literal (w := w) hv
    obtain ⟨make, hmake⟩ := textDecode_literal h htok hop (by rw [hclass]; split <;> simp)
    by_cases hr : Codec.InRange w v
    · rw [if_pos hr] at hclass
      simpa [hmake, literalOperand, hclass] using hr
    · rw [if_neg hr] at hclass
      simpa [hmake, literalOperand, hclass] using hr
  · simp only [Codec.InRange]
    omega
  · simp only [Codec.InRange]
    omega

/-- Settles O37: each of the three opcodes takes the literal arm, and the field is read back by R78. -/
theorem immediateFieldHoldsTheLiteral : Obligations.ImmediateFieldHoldsTheLiteral := by
  intro w t v hw hclass
  have hlit (make : BitVec w → Decoded w) : literalOperand w t make = .ok (make (bitsOf w v)) := by
    simp only [literalOperand, hclass]
  have hsrc (make : Src w → Decoded w) : sourceOperand w t make = .ok (make (.imm (bitsOf w v))) := by
    simp only [sourceOperand, regNamed_eq_none_of_classLit (w := w) (t := t) (by simp [hclass]), hlit]
  obtain ⟨-, hrange⟩ : literalValue t = some v ∧ Codec.InRange w v := (classesOfAnOperandToken w t).1 v |>.1 hclass
  exact ⟨hlit .mov, hsrc .add, hsrc .sub, immOf_wordOf _ _, immOf_wordOf _ _, immOf_wordOf _ _,
    Source.sint_bitsOf hw hrange⟩

/-- Settles O38: with a known opcode only the first operand is looked at, and with any other not even that. -/
theorem operandTokensAfterTheFirstAreIgnored : Obligations.OperandTokensAfterTheFirstAreIgnored := by
  intro w line line' op t rest rest' h h' htok htok'
  cases ho : opcodeOf op with
  | some o => rw [textDecode_operand h htok ho, textDecode_operand h' htok' ho]
  | none =>
    have hop := (opcodeOf_eq_none_iff op).1 ho
    rw [textDecode_unrecognized h htok hop, textDecode_unrecognized h' htok' hop]

/-- Settles O39: the step of Unknown is the skeleton alone (R180). -/
theorem unrecognizedLineDoesOnlyTheCommonStep : Obligations.UnrecognizedLineDoesOnlyTheCommonStep := by
  intro w pcw line op rest b h htok hop
  have hd := textDecode_unrecognized (w := w) h htok hop
  refine ⟨hd, ?_⟩
  simp only [executeLine, hd, stepDecoded_eq, finishStep_startStep, nextPc_eq]
  rfl

/-! ### A line and its word, and runs -/

/-- Settles O30: both are the step of the line's decoded instruction. -/
theorem lineAndItsAssembledWordBehaveAlike : Obligations.LineAndItsAssembledWordBehaveAlike := by
  constructor
  · intro w pcw line d b hd
    simp only [executeLine, hd, stepWord, decodeWord_asm]
  · intro line d s hd
    simp only [takeOffer, runLine, executeLine, hd, exec_eq_stepDecoded, decoded_decode, decodeWord_asm]

/-- A run over admitted offers ends, whichever the policy (R79, R121). -/
theorem exists_hostRun_of_admitted (policy : Config.OnError) {offers : List (Offer w)}
    (h : offers.all offerAdmitted = true) (b : Block w pcw) : ∃ c, hostRun policy offers b = .ok c := by
  induction offers generalizing b with
  | nil => exact ⟨b, rfl⟩
  | cons o rest ih =>
    obtain ⟨ho, hrest⟩ : offerAdmitted o = true ∧ rest.all offerAdmitted = true := by
      simpa only [List.all_cons, Bool.and_eq_true] using h
    obtain ⟨c, hc⟩ := exists_take_of_admitted ho b
    rw [hostRun_cons_ok hc]
    split
    · exact ⟨c, rfl⟩
    · exact ih hrest c

/-- On the machine, an admitted offer is answered with a next state. -/
theorem takeOffer_completes_of_admitted {o : Offer Config.W} (h : offerAdmitted o = true) (s : State) :
    Completes (takeOffer o s) := by
  cases o with
  | reset => exact ⟨_, rfl⟩
  | word iw => exact ⟨_, exec_eq_stepDecoded _ s⟩
  | line text =>
    rcases runLine_cases text s with ⟨reason, hd, -⟩ | ⟨d, -, hx⟩
    · simp [offerAdmitted, lineAdmitted, hd] at h
    · exact ⟨_, hx⟩

/-- Settles O53, by induction on the offers: each admitted one is answered. -/
theorem runsOverAdmittedOffersComplete : Obligations.RunsOverAdmittedOffersComplete :=
  ⟨fun _ _ policy _ b h => exists_hostRun_of_admitted policy h b, fun _ s h => takeOffer_completes_of_admitted h s⟩

/-! ### Reading a disassembly back (R86) -/

/-- A run that a line may hold as a token: printable characters, at least one (R62, R63). -/
def IsToken (t : Token) : Prop := t ≠ [] ∧ t.all isPrintable = true

theorem IsToken.not_isWhitespace {t : Token} (h : IsToken t) : ∀ c ∈ t, isWhitespace c = false :=
  fun c hc => isWhitespace_of_isPrintable (List.all_eq_true.1 h.2 c hc)

theorem IsToken.all_inCharset {t : Token} (h : IsToken t) : t.all inCharset = true :=
  List.all_eq_true.2 fun c hc => by simp [inCharset, List.all_eq_true.1 h.2 c hc]

theorem tokenize_of_isToken {t : Token} (h : IsToken t) : tokenize t = [t] := by
  simpa [tokenize] using tokenize_token_append (rest := []) h.1 h.not_isWhitespace nofun

/-- Two tokens with a space between them (R63). -/
theorem tokenize_append_space {op t : Token} (hop : IsToken op) (ht : IsToken t) :
    tokenize (op ++ ' ' :: t) = [op, t] := by
  have hspace : tokenize (' ' :: t) = tokenize t := tokenize_gap_append (gap := [' ']) (by simp [isWhitespace_iff]) t
  rw [tokenize_token_append hop.1 hop.not_isWhitespace (by simp [isWhitespace_iff]), hspace, tokenize_of_isToken ht]

theorem all_inCharset_append_space {op t : Token} (hop : IsToken op) (ht : IsToken t) :
    (op ++ ' ' :: t).all inCharset = true := by
  have hspace : inCharset ' ' = true := by decide
  simp only [List.all_append, List.all_cons, hop.all_inCharset, ht.all_inCharset, hspace, Bool.and_self]

theorem isToken_opName (o : TextOp) : IsToken o.name := by
  unfold IsToken
  cases o <;> decide

theorem isToken_regName (r : Reg) : IsToken r.name := by
  unfold IsToken
  cases r <;> decide

theorem isToken_failName (k : FailKind) : IsToken k.name := by
  unfold IsToken
  cases k <;> decide

theorem isToken_of_literalValue {t : Token} {v : Int} (h : literalValue t = some v) : IsToken t := by
  obtain ⟨sgn, ds, n, rfl, hsgn, hn, -⟩ := (literalValue_eq_some_iff t v).1 h
  obtain ⟨hne, hdig, -⟩ := (digitsValue_eq_some_iff ds n).1 hn
  have hprint : ds.all isPrintable = true := List.all_eq_true.2 fun c hc => isPrintable_of_isDigit (hdig c hc)
  have hsign : sgn.all isPrintable = true := by rcases hsgn with rfl | rfl | rfl <;> decide
  exact ⟨by simp [hne], by rw [List.all_append, hprint, hsign]; rfl⟩

/-- An opcode, a space and one operand decode by the opcode's operand rule (R71). -/
theorem textDecode_opName_append (o : TextOp) {t : Token} (ht : IsToken t) :
    textDecode w (o.name ++ ' ' :: t) = decodeOperand w o t :=
  textDecode_operand (all_inCharset_append_space (isToken_opName o) ht) (tokenize_append_space (isToken_opName o) ht)
    (opcodeOf_name o)

/-- The character of a decimal digit, as R66 reads it. -/
theorem toNat_digitChar {d : Nat} (h : d < 10) : (Char.ofNat (0x30 + d)).toNat = 0x30 + d :=
  (Char.toNat_ofNat _).trans (if_pos (.inl (by omega)))

theorem isDigit_digitChar {d : Nat} (h : d < 10) : isDigit (Char.ofNat (0x30 + d)) = true := by
  rw [isDigit_iff, toNat_digitChar h]
  omega

theorem digitsValue_digit {d : Nat} (h : d < 10) : digitsValue [Char.ofNat (0x30 + d)] = some d := by
  simp [digitsValue, isDigit_digitChar h, toNat_digitChar h]

theorem digitsValue_append_digit {t : Token} {n d : Nat} (ht : digitsValue t = some n) (h : d < 10) :
    digitsValue (t ++ [Char.ofNat (0x30 + d)]) = some (10 * n + d) := by
  rw [digitsValue_eq_some_iff] at ht ⊢
  obtain ⟨-, hdig, rfl⟩ := ht
  refine ⟨by simp, ?_, ?_⟩
  · simpa [or_imp, forall_and, isDigit_digitChar h] using hdig
  · rw [List.reverse_append, List.reverse_singleton, List.singleton_append, List.map_cons, Nat.ofDigits_cons,
      toNat_digitChar h, Nat.add_sub_cancel_left, Nat.add_comm]

/-- The decimal digits of a number read back as it, given fuel enough for all of them. -/
theorem digitsValue_decimalAux {fuel n : Nat} (h : n < fuel) : digitsValue (decimalAux fuel n) = some n := by
  induction fuel generalizing n with
  | zero => omega
  | succ f ih =>
    rw [decimalAux]
    split
    case isTrue hn => exact digitsValue_digit hn
    case isFalse hn =>
      have hdiv := digitsValue_append_digit (ih (n := n / 10) (by omega)) (Nat.mod_lt n (by decide : 0 < 10))
      rwa [Nat.div_add_mod] at hdiv

theorem literalValue_decimal (v : Int) : literalValue (decimal v) = some v := by
  have hdigits := digitsValue_decimalAux (Nat.lt_succ_self v.natAbs)
  rw [literalValue_eq_some_iff, decimal]
  split
  · exact ⟨['-'], _, _, rfl, by simp, hdigits, by rw [if_pos rfl]; omega⟩
  · exact ⟨[], _, _, rfl, by simp, hdigits, by rw [if_neg nofun]; omega⟩

/-- Every immediate is spelled as a literal in range (R68, R86). -/
theorem classLit_decimal (imm : BitVec w) : classLit w (decimal (sint imm)) = .lit (sint imm) := by
  rw [classLit_of_literal (literalValue_decimal _), if_pos ⟨imm.le_toInt, imm.toInt_lt⟩]

theorem literalOperand_decimal (imm : BitVec w) (make : BitVec w → Decoded w) :
    literalOperand w (decimal (sint imm)) make = .ok (make imm) := by
  simp only [literalOperand, classLit_decimal, bitsOf, sint, BitVec.ofInt_toInt]

theorem sourceOperand_spelling (src : Src w) (make : Src w → Decoded w) :
    sourceOperand w src.spelling make = .ok (make src) := by
  cases src with
  | reg r => simp only [sourceOperand, Src.spelling, regNamed_name]
  | imm v =>
    have hreg : regNamed (decimal (sint v)) = none := regNamed_eq_none_of_classLit (w := w) (by simp [classLit_decimal])
    simp only [sourceOperand, Src.spelling, hreg, literalOperand_decimal]

theorem isToken_decimal (v : Int) : IsToken (decimal v) := isToken_of_literalValue (literalValue_decimal v)

theorem isToken_spelling (src : Src w) : IsToken src.spelling := by
  cases src with
  | reg r => exact isToken_regName r
  | imm v => exact isToken_decimal (sint v)

/-- Settles O43: the opcode and the operand's spelling are the line's two tokens, and the operand's rule reads the
spelling back. -/
theorem disassemblyReadsBack : Obligations.DisassemblyReadsBack := by
  intro w d _
  cases d with
  | mov imm =>
    exact (textDecode_opName_append .mov (isToken_decimal _)).trans (literalOperand_decimal imm .mov)
  | save r =>
    refine (textDecode_opName_append .save (isToken_regName r)).trans ?_
    simp only [decodeOperand, regNamed_name]
  | add src =>
    exact (textDecode_opName_append .add (isToken_spelling src)).trans (sourceOperand_spelling src .add)
  | sub src =>
    exact (textDecode_opName_append .sub (isToken_spelling src)).trans (sourceOperand_spelling src .sub)
  | unknown =>
    have hunk : IsToken ['.', 'u', 'n', 'k'] := ⟨by decide, by decide⟩
    exact textDecode_unrecognized hunk.all_inCharset (tokenize_of_isToken hunk)
      ((opcodeOf_eq_none_iff _).1 rfl)
  | fail k =>
    have herr : IsToken ['.', 'e', 'r', 'r'] := ⟨by decide, by decide⟩
    exact textDecode_unrecognized (all_inCharset_append_space herr (isToken_failName k))
      (tokenize_append_space herr (isToken_failName k)) ((opcodeOf_eq_none_iff _).1 (by decide))

end Sys2Proof
end

section
/-! PROOFS: the family 40_word_codec.md. First the binary digits of a number and when a string is well formed; then the
codec on the bits of a register, `bitStringOf`: encode writes them, decode reads them, and every binary string is the
bits of a register of its own length. -/

namespace Sys2Proof.Codec

open Sys2Proof.Machine

variable {w : Nat}

/-! ### Digit strings -/

@[simp] theorem bitChar_eq_one_iff (b : Bool) : bitChar b = '1' ↔ b = true := by cases b <;> decide

theorem bitChar_binary (b : Bool) : bitChar b = '0' ∨ bitChar b = '1' := by cases b <;> decide

/-- The value of one digit in `binaryValue` (R105). -/
theorem digit_bitChar (b : Bool) : (if bitChar b = '1' then 1 else 0) = b.toNat := by cases b <;> rfl

@[simp] theorem length_lowDigits (n u : Nat) : (lowDigits n u).length = n := by simp [lowDigits]

theorem lowDigits_one (u : Nat) : lowDigits 1 u = [bitChar (u.testBit 0)] := rfl

/-- The low `m + k` digits are `k` digits above the low `m`. -/
theorem lowDigits_add (m k u : Nat) : lowDigits (m + k) u = lowDigits k (u / 2 ^ m) ++ lowDigits m u := by
  simp [lowDigits, List.range_add, Nat.testBit_div_two_pow, Nat.add_comm]

theorem lowDigits_zero_right (k : Nat) : lowDigits k 0 = List.replicate k '0' := by
  simp [lowDigits, bitChar, List.map_const']

/-- Padding the binary representation to a width that holds the number gives that many digits (R101, R103). -/
theorem padLeft_binary {n u : Nat} (hn : 1 ≤ n) (hu : u < 2 ^ n) : padLeft n (binary u) = lowDigits n u := by
  have hlog : u.log2 + 1 ≤ n := by
    rcases Nat.eq_zero_or_pos u with rfl | hpos
    · simpa using hn
    · exact (Nat.log2_lt hpos.ne').2 hu
  have hzero : u / 2 ^ (u.log2 + 1) = 0 := Nat.div_eq_of_lt Nat.lt_log2_self
  calc padLeft n (binary u)
      = lowDigits (n - (u.log2 + 1)) (u / 2 ^ (u.log2 + 1)) ++ lowDigits (u.log2 + 1) u := by
        rw [hzero, lowDigits_zero_right, padLeft, binary, length_lowDigits]
    _ = lowDigits n u := by rw [← lowDigits_add, Nat.add_sub_cancel' hlog]

/-- A number of at most `n` binary digits is the value of its digits (R105). -/
theorem binaryValue_lowDigits {n u : Nat} (hu : u < 2 ^ n) : binaryValue (lowDigits n u) = u := by
  induction n generalizing u with
  | zero =>
    obtain rfl : u = 0 := by simpa using hu
    rfl
  | succ n ih =>
    have hhalf : u / 2 < 2 ^ n := Nat.div_lt_of_lt_mul (by rwa [Nat.pow_succ'] at hu)
    have hvalue : binaryValue (lowDigits (n + 1) u) =
        2 * binaryValue (lowDigits n (u / 2)) + (u.testBit 0).toNat := by
      rw [Nat.add_comm, lowDigits_add, lowDigits_one, binaryValue, List.foldl_append, List.foldl_cons, digit_bitChar]
      rfl
    rw [hvalue, ih hhalf, Nat.toNat_testBit]
    omega

/-! ### When encode and decode answer (R103, R106) -/

theorem encode_of_inRange {v : Int} (hw : 1 ≤ w) (h : InRange w v) :
    encode v w = some (padLeft w (binary (if 0 ≤ v then v else (2 : Int) ^ w + v).toNat)) := if_pos ⟨hw, h⟩

theorem encode_eq_none_iff (v : Int) (w : Nat) : encode v w = none ↔ ¬ (1 ≤ w ∧ InRange w v) := by
  simp only [encode, ite_eq_right_iff, reduceCtorEq, imp_false]

theorem wellFormedBits_iff (bits : BitString) :
    wellFormedBits bits = true ↔ bits ≠ [] ∧ ∀ c ∈ bits, c = '0' ∨ c = '1' := by
  simp [wellFormedBits]

theorem decode_of_wellFormed {bits : BitString} (h : wellFormedBits bits = true) :
    decode bits =
      .ok (if bits.head? = some '1' then (binaryValue bits : Int) - 2 ^ bits.length else binaryValue bits) := if_pos h

theorem decode_eq_invalidEncoding_iff (bits : BitString) :
    decode bits = .error .invalidEncoding ↔ wellFormedBits bits = false := by
  cases h : wellFormedBits bits with
  | true => simp [decode_of_wellFormed h]
  | false => simp [decode, h]

/-- Settles O46: encode has one guard, the precondition. -/
theorem encodeIsRefusedExactlyOutsideItsRange : Obligations.EncodeIsRefusedExactlyOutsideItsRange := by
  intro v width
  rw [encode_eq_none_iff]
  omega

/-- Settles O47: decode has one guard, and the port `err_o` is too narrow for the codec's code 4. -/
theorem malformedBitStringsAreRejected : Obligations.MalformedBitStringsAreRejected := by
  refine ⟨fun bits => ?_, fun w pcw b => b.err.isLt.ne⟩
  rw [decode_eq_invalidEncoding_iff, ← Bool.not_eq_true, wellFormedBits_iff]
  simp only [ne_eq, not_and_or, not_not, not_forall, not_or, exists_prop]

/-! ### The bits of a register (R108) -/

theorem bitStringOf_eq_lowDigits (x : BitVec w) : bitStringOf x = lowDigits w x.toNat := by
  refine List.ext_getElem (by simp [bitStringOf]) fun i _ _ => ?_
  simp [bitStringOf, lowDigits, BitVec.testBit_toNat]

@[simp] theorem length_bitStringOf (x : BitVec w) : (bitStringOf x).length = w := by
  rw [bitStringOf_eq_lowDigits, length_lowDigits]

/-- The first of a register's bits is its sign bit. -/
theorem bitStringOf_cons (b : Bool) (x : BitVec w) : bitStringOf (BitVec.cons b x) = bitChar b :: bitStringOf x := by
  have htop : (BitVec.cons b x).getLsbD w = b := by rw [BitVec.getLsbD_cons, if_pos rfl]
  have hlow : ∀ i ∈ List.range w, (BitVec.cons b x).getLsbD (w - (i + 1)) = x.getLsbD (w - 1 - i) := by
    intro i hi
    have hlt : i < w := List.mem_range.1 hi
    rw [BitVec.getLsbD_cons, if_neg (by omega), Nat.sub_add_eq, Nat.sub_right_comm]
  rw [bitStringOf, List.range_succ_eq_map, List.map_cons, List.map_map, Nat.add_sub_cancel, Nat.sub_zero, htop]
  exact congrArg _ (List.map_congr_left fun i hi => congrArg bitChar (hlow i hi))

theorem wellFormedBits_bitStringOf (hw : 1 ≤ w) (x : BitVec w) : wellFormedBits (bitStringOf x) = true := by
  rw [wellFormedBits_iff, ← List.length_pos_iff, length_bitStringOf]
  refine ⟨hw, fun c hc => ?_⟩
  obtain ⟨i, -, rfl⟩ := List.mem_map.1 hc
  exact bitChar_binary _

theorem head?_bitStringOf (hw : 1 ≤ w) (x : BitVec w) : (bitStringOf x).head? = some (bitChar x.msb) := by
  obtain ⟨n, rfl⟩ := Nat.exists_eq_add_of_le' hw
  rw [← BitVec.cons_msb_setWidth x, bitStringOf_cons, List.head?_cons, BitVec.msb_cons]

/-- A binary string is the bits of a register as wide as the string is long. -/
theorem exists_bitStringOf_eq (bits : BitString) (h : ∀ c ∈ bits, c = '0' ∨ c = '1') :
    ∃ x : BitVec bits.length, bitStringOf x = bits := by
  induction bits with
  | nil => exact ⟨0#0, rfl⟩
  | cons c cs ih =>
    obtain ⟨hc, hcs⟩ := List.forall_mem_cons.1 h
    obtain ⟨x, hx⟩ := ih hcs
    obtain ⟨b, rfl⟩ : ∃ b, bitChar b = c := hc.elim (fun h0 => ⟨false, h0.symm⟩) fun h1 => ⟨true, h1.symm⟩
    exact ⟨BitVec.cons b x, by rw [bitStringOf_cons, hx]⟩

/-! ### The codec laws (R107 to R109) -/

/-- The number that encode writes is the unsigned reading of `bits_W(v)` (R12, R101, R102). -/
theorem toNat_bitsOf {v : Int} (h : InRange w v) :
    (bitsOf w v).toNat = (if 0 ≤ v then v else (2 : Int) ^ w + v).toNat := by
  have hpow : (2 : Int) ^ (w - 1) ≤ 2 ^ w := pow_le_pow_right₀ (by decide) (Nat.sub_le w 1)
  obtain ⟨hlo, hhi⟩ := h
  rw [bitsOf, BitVec.toNat_ofInt, Nat.cast_pow, Nat.cast_ofNat]
  split
  case isTrue hv => rw [Int.emod_eq_of_lt hv (by omega)]
  case isFalse hv => rw [← Int.add_emod_left, Int.emod_eq_of_lt (by omega) (by omega)]

/-- encode writes the bits of `bits_W(v)`. -/
theorem encode_eq_bitStringOf {v : Int} (hw : 1 ≤ w) (h : InRange w v) :
    encode v w = some (bitStringOf (bitsOf w v)) := by
  rw [encode_of_inRange hw h, ← toNat_bitsOf h, padLeft_binary hw (bitsOf w v).isLt, bitStringOf_eq_lowDigits]

theorem encode_sint (hw : 1 ≤ w) (x : BitVec w) : encode (sint x) w = some (bitStringOf x) := by
  rw [encode_eq_bitStringOf hw ⟨x.le_toInt, x.toInt_lt⟩, bitsOf, BitVec.ofInt_toInt]

/-- decode reads the bits as the register's signed value: the first character is the sign bit. -/
theorem decode_bitStringOf (hw : 1 ≤ w) (x : BitVec w) : decode (bitStringOf x) = .ok (sint x) := by
  have hvalue : binaryValue (bitStringOf x) = x.toNat := by
    rw [bitStringOf_eq_lowDigits, binaryValue_lowDigits x.isLt]
  rw [decode_of_wellFormed (wellFormedBits_bitStringOf hw x), hvalue, head?_bitStringOf hw, length_bitStringOf,
    sint, BitVec.toInt_eq_msb_cond]
  simp

/-- Settles O45, by the codec's two functions on the bits of a register. -/
theorem renderedRegisterIsItsBits : Obligations.RenderedRegisterIsItsBits :=
  fun _ x hw => ⟨encode_sint hw x, decode_bitStringOf hw x⟩

/-- Settles O44: the string is the bits of `bits_W(v)`, which read back as `v`. -/
theorem codecRoundTripAndWidth : Obligations.CodecRoundTripAndWidth := by
  intro width v hw hlo hhi
  have hrange : InRange width v := ⟨hlo, hhi⟩
  refine ⟨bitStringOf (bitsOf width v), encode_eq_bitStringOf hw hrange, ?_, length_bitStringOf _⟩
  rw [decode_bitStringOf hw, Source.sint_bitsOf hw hrange]

/-- Settles O48: the string is the bits of a register, and `v` is the register's signed value. -/
theorem decodeIsInRangeAndInvertedByEncode : Obligations.DecodeIsInRangeAndInvertedByEncode := by
  intro bits hne hbin
  have hw : 1 ≤ bits.length := List.length_pos_iff.2 hne
  obtain ⟨x, hx⟩ := exists_bitStringOf_eq bits hbin
  refine ⟨sint x, ?_, x.le_toInt, x.toInt_lt, ?_⟩
  · rw [← decode_bitStringOf hw x, hx]
  · rw [encode_sint hw x, hx]

end Sys2Proof.Codec
end

section
/-! PROOFS: the family 41_execute_cycle.md. First a step said by its Perform: what Perform writes, and PC, TC and the
result on top; then the rows and the offers of the machine, which are read through the block's step. -/

namespace Sys2Proof.Machine

variable {w pcw : Nat}

/-! ### Perform and the step around it (R120, R124) -/

/-- The operands of the XOR are no part of the step's skeleton. -/
theorem xorIntoAcc_startStep (src : Src w) (b : Block w pcw) :
    xorIntoAcc src (startStep b) = startStep (xorIntoAcc src b) := by
  simp only [xorIntoAcc_eq, operandMux_startStep, startStep_acc]
  rfl

/-- No instruction reads or writes what the start of a step writes (R120, R131). -/
theorem perform_startStep (d : Decoded w) (b : Block w pcw) :
    perform d (startStep b) = (startStep (perform d b).1, (perform d b).2) := by
  cases d with
  | save r => cases r <;> rfl
  | add src | sub src => simp only [perform, xorIntoAcc_startStep]
  | mov | unknown | fail => rfl

/-- A step is Perform on the block it starts from, with PC, TC and `err_o` written on top (R120). -/
theorem stepDecoded_eq_perform (d : Decoded w) (b : Block w pcw) :
    stepDecoded d b =
      { (perform d b).1 with pc := b.pc + 1#pcw, tc := 1#1, err := resultCode (perform d b).2 } := by
  simp only [stepDecoded, perform_startStep, finishStep_startStep, perform_pc, nextPc_eq]

/-- What stands on `err_o` after a step is the code of Perform's result. -/
theorem stepDecoded_err (d : Decoded w) (b : Block w pcw) : (stepDecoded d b).err = resultCode (perform d b).2 := by
  rw [stepDecoded_eq_perform]

/-- The codes tell success from the errors (R200). -/
theorem resultCode_eq_zero_iff (r : StepResult) : resultCode r = 0#2 ↔ r = .ok := by
  cases r with
  | ok => simp
  | err k => simp [failCode_ne_zero]

/-- An instruction whose result is an error has written nothing (R124). -/
theorem perform_fst_of_snd_ne_ok {d : Decoded w} {b : Block w pcw} (h : (perform d b).2 ≠ .ok) :
    (perform d b).1 = b := by
  cases d with
  | fail k => rfl
  | mov | save | add | sub | unknown => exact absurd rfl h

/-- A failing step writes the counters and its result, and keeps the rest of the block (R124). -/
theorem stepDecoded_of_err_ne_zero {d : Decoded w} {b : Block w pcw} (h : (stepDecoded d b).err ≠ 0) :
    stepDecoded d b = { b with pc := b.pc + 1#pcw, tc := 1, err := (stepDecoded d b).err } := by
  have hres : (perform d b).2 ≠ .ok := fun hok => h (by rw [stepDecoded_err, hok, resultCode_ok]; rfl)
  rw [stepDecoded_err, stepDecoded_eq_perform, perform_fst_of_snd_ne_ok hres]
  rfl

/-- A step with result Ok keeps all that Perform wrote (R124). -/
theorem stepDecoded_of_err_eq_zero {d : Decoded w} {b : Block w pcw} (h : (stepDecoded d b).err = 0) :
    stepDecoded d b = { (perform d b).1 with pc := b.pc + 1#pcw, tc := 1, err := 0 } := by
  rw [stepDecoded_err] at h
  rw [stepDecoded_eq_perform, h]
  rfl

/-- Settles O14: Perform answers `Err` with no writes, and the code tells which result it was. -/
theorem stepsApplyAllTheirWritesOrFailWithNone : Obligations.StepsApplyAllTheirWritesOrFailWithNone := by
  refine ⟨fun i s => ⟨_, exec_eq_stepDecoded i s, fun h => ?_, fun h => ?_⟩,
    fun w pcw d b => ⟨stepDecoded_of_err_ne_zero, stepDecoded_of_err_eq_zero⟩⟩
  · exact congrArg s.withBlock (stepDecoded_of_err_ne_zero h)
  · exact congrArg s.withBlock (stepDecoded_of_err_eq_zero h)

/-- Settles O12: each row is Perform's arm with the counters and the result on top. -/
theorem writesOfEachDecodedInstruction : Obligations.WritesOfEachDecodedInstruction := by
  intro w pcw b
  have hxor (src : Src w) : { xorIntoAcc src b with pc := b.pc + 1#pcw, tc := 1, err := 0 } = { b with
      acc := b.acc ^^^ operandMux src b, sign := BitVec.ofBool ((b.acc ^^^ operandMux src b).getLsbD (w - 1)),
      pc := b.pc + 1#pcw, tc := 1, err := 0 } := rfl
  refine ⟨rfl, fun imm => stepDecoded_eq_perform (.mov imm) b,
    fun r => ⟨stepDecoded_eq_perform (.save r) b, ?_, ?_⟩,
    fun src => (stepDecoded_eq_perform (.add src) b).trans (hxor src),
    fun src => (stepDecoded_eq_perform (.sub src) b).trans (hxor src), stepDecoded_eq_perform .unknown b,
    fun k => stepDecoded_eq_perform (.fail k) b⟩
  · simp [readReg_stepDecoded]
  · intro q hq
    simp [readReg_stepDecoded, hq.symm]

/-! ### PC and TC (R122, R123, R129) -/

/-- PC's count after a step, whatever it decoded to (R123). -/
theorem uint_stepDecoded_pc (d : Decoded w) (b : Block w pcw) :
    uint (stepDecoded d b).pc = (uint b.pc + 1) % 2 ^ pcw := by
  rw [stepDecoded_pc, uint_nextPc]

/-- Settles O13: a row's step and an admitted line's step are both the step of a decoded instruction. -/
theorem countersAdvanceOnEveryStep : Obligations.CountersAdvanceOnEveryStep := by
  refine ⟨fun i s => ⟨_, exec_eq_stepDecoded i s, uint_stepDecoded_pc _ _, stepDecoded_tc _ _⟩,
    fun w pcw d b => ⟨uint_nextPc b.pc, stepDecoded_pc d b, stepDecoded_tc d b⟩, fun w pcw line b hadm => ?_⟩
  rcases executeLine_cases line b with ⟨reason, hd, -⟩ | ⟨d, -, hx⟩
  · simp [lineAdmitted, hd] at hadm
  · exact ⟨stepDecoded d b, hx, uint_stepDecoded_pc d b, stepDecoded_tc d b⟩

/-! ### The machine's answer to an offer (R121, R35) -/

/-- An offer that the block takes is the machine's next state; the supply is not touched. -/
theorem takeOffer_of_take_ok {o : Offer Config.W} {s : State} {b : Block Config.W Config.PCW}
    (h : s.toBlock.take o = .ok b) : takeOffer o s = .next (s.withBlock b) := by
  rcases take_cases h with ⟨rfl, rfl⟩ | ⟨iw, rfl, rfl⟩ | ⟨text, d, rfl, hd, rfl⟩
  · rfl
  · simp only [takeOffer, exec_eq_stepDecoded, decoded_decode]
  · simp only [takeOffer, runLine, executeLine, hd]

/-- The block refuses nothing but a line, and a line for TextDecode's reason (R71, R121). -/
theorem take_eq_error_iff (o : Offer w) (b : Block w pcw) (reason : LineRefusal) :
    b.take o = .error reason ↔ ∃ text, o = .line text ∧ textDecode w text = .error reason := by
  cases o with
  | reset | word iw => simp [Block.take]
  | line text => simp [Block.take, executeLine_eq_error_iff]

/-- An offer that the block refuses is refused on the machine (log entry 6). -/
theorem takeOffer_of_take_error {o : Offer Config.W} {s : State} {reason : LineRefusal}
    (h : s.toBlock.take o = .error reason) : takeOffer o s = .refused (.lineRefused reason) := by
  obtain ⟨text, rfl, hd⟩ := (take_eq_error_iff o s.toBlock reason).1 h
  simp only [takeOffer, runLine, executeLine, hd]

/-- Settles O11: a row by its decoded instruction, an offer by the block's two answers. -/
theorem everyRowPerformsItsDecodedInstruction : Obligations.EveryRowPerformsItsDecodedInstruction := by
  refine ⟨exec_eq_stepDecoded, fun o s => ?_⟩
  split
  next b h => exact takeOffer_of_take_ok h
  next reason h => exact takeOffer_of_take_error h

/-- The machine refuses an offer exactly when the block does, and passes its reason on. -/
theorem takeOffer_eq_refused_iff (o : Offer Config.W) (s : State) (r : Refusal) :
    takeOffer o s = .refused r ↔ ∃ reason, s.toBlock.take o = .error reason ∧ r = .lineRefused reason := by
  cases h : s.toBlock.take o with
  | ok b => simp [takeOffer_of_take_ok h]
  | error reason => simp [takeOffer_of_take_error h, eq_comm]

/-- Settles O54: without an offer nothing is refused, and the oldest offer is refused exactly when the block refuses
it. -/
theorem stepIsRefusedOnlyForARefusedLine : Obligations.StepIsRefusedOnlyForARefusedLine := by
  intro s r
  cases hs : s.supply with
  | nil => simp [step, takeNext, hs]
  | cons o rest =>
    have hstep : step s = takeOffer o { s with supply := rest } := by simp only [step, takeNext, hs]
    simp only [hstep, takeOffer_eq_refused_iff, take_eq_error_iff, List.cons.injEq]
    constructor
    · rintro ⟨reason, ⟨text, rfl, hd⟩, rfl⟩
      exact ⟨text, rest, reason, ⟨rfl, rfl⟩, hd, rfl⟩
    · rintro ⟨text, _, reason, ⟨rfl, rfl⟩, hd, rfl⟩
      exact ⟨reason, ⟨text, rfl, hd⟩, rfl⟩

end Sys2Proof.Machine
end

section
/-! PROOFS: the family 42_data_movement.md. A row's step is Perform of its decoded instruction with PC, TC and the result
on top; `mov` is read from that, and `save` from the table of writes, `writesOfEachDecodedInstruction` (R131). -/

namespace Sys2Proof.Machine

/-- A row writes what Perform writes, then PC, TC and `err_o`; the supply is not touched (R120, R131). -/
theorem exec_eq_perform (i : Instr) (s : State) :
    exec i s = .next (s.withBlock { (perform i.decoded s.toBlock).1 with
      pc := s.pc + 1, tc := 1, err := resultCode (perform i.decoded s.toBlock).2 }) := by
  rw [exec_eq_stepDecoded, stepDecoded_eq_perform]
  rfl

/-- Settles O3: Perform's arm for `mov` is the write of ACC, with result Ok (R140). -/
theorem movLoadsTheImmediate : Obligations.MovLoadsTheImmediate :=
  fun imm s => exec_eq_perform (.mov imm) s

/-- Settles O4: the register reads are the table's clause for `save`; ACC and SIGN are fields that the write of a
register leaves (R141). -/
theorem saveCopiesTheAccumulator : Obligations.SaveCopiesTheAccumulator := by
  intro r s
  obtain ⟨-, -, hsave, -⟩ := writesOfEachDecodedInstruction Config.W Config.PCW s.toBlock
  obtain ⟨hstep, hsaved, hothers⟩ := hsave r
  have hacc := (congrArg Block.acc hstep).trans (writeReg_acc r s.acc s.toBlock)
  have hsign := (congrArg Block.sign hstep).trans (writeReg_sign r s.acc s.toBlock)
  exact ⟨_, exec_eq_stepDecoded (.save r) s, hsaved, hothers, hacc, hsign, congrArg Block.pc hstep, stepDecoded_tc _ _,
    congrArg Block.err hstep, rfl⟩

end Sys2Proof.Machine
end

section
/-! PROOFS: the family 43_xor_alu.md. First the laws of XOR, for the ALU and for the source's integers; then what a
step of `add` leaves, said once, since the step of `sub` is the same (R162); then the rows and the words of the two. -/

namespace Sys2Proof.Machine

open Sys2Proof.Source

variable {w pcw : Nat}

/-! ### The laws of the ALU (R163, R165) -/

/-- XOR with the same operand twice gives the value back (R163). -/
theorem aluXor_aluXor_cancel (x v : BitVec w) : aluXor (aluXor x v) v = x := by
  rw [aluXor, aluXor, BitVec.xor_assoc, BitVec.xor_self, BitVec.xor_zero]

/-- A result is negative exactly when one of the operands is (R163). -/
theorem sint_aluXor_neg_iff (x v : BitVec w) : sint (aluXor x v) < 0 ↔ ¬(sint x < 0 ↔ sint v < 0) := by
  have hneg (y : BitVec w) : sint y < 0 ↔ y.msb = true := by simp [BitVec.msb_eq_toInt]
  rw [hneg, hneg, hneg, aluXor, BitVec.msb_xor]
  cases x.msb <;> cases v.msb <;> decide

/-- The model's XOR of integers is the library's, which is taken bit by bit on infinite strings (R165). -/
theorem intXor_eq_xor (a b : Int) : intXor a b = Int.xor a b := by
  cases a <;> cases b <;> rfl

/-- XOR with −1, whose bits are all 1, is the complement (R163). -/
theorem intXor_neg_one (a : Int) : intXor a (-1) = -a - 1 := by
  cases a with
  | ofNat m =>
    have h : intXor (.ofNat m) (-1) = .negSucc (m ^^^ 0) := rfl
    rw [h, Nat.xor_zero, Int.negSucc_eq, Int.ofNat_eq_natCast]
    omega
  | negSucc m =>
    have h : intXor (.negSucc m) (-1) = .ofNat (m ^^^ 0) := rfl
    rw [h, Nat.xor_zero, Int.negSucc_eq, Int.ofNat_eq_natCast]
    omega

/-- −1 is a value of every width of at least 1, so the law of the integers is the law of the words (R163). -/
theorem sint_aluXor_neg_one (hw : 1 ≤ w) (x : BitVec w) : sint (aluXor x (bitsOf w (-1))) = -sint x - 1 := by
  have hpow : (0 : Int) < 2 ^ (w - 1) := by positivity
  rw [sint_aluXor, sint_bitsOf hw ⟨by omega, by omega⟩, intXor_neg_one]

/-- Settles O22: the words of two values in range XOR to a word that stands for the XOR of the values, so that is in
range as every word's value is. -/
theorem xorOfIntegersStaysInRangeAndIsExact : Obligations.XorOfIntegersStaysInRangeAndIsExact := by
  refine ⟨fun a b n => by rw [intXor_eq_xor, Int.testBit_lxor], fun w a b hw ha hb => ?_⟩
  have hexact : sint (aluXor (bitsOf w a) (bitsOf w b)) = intXor a b := by
    rw [sint_aluXor, sint_bitsOf hw ha, sint_bitsOf hw hb]
  refine ⟨?_, hexact⟩
  rw [← hexact]
  exact ⟨BitVec.le_toInt _, BitVec.toInt_lt⟩

/-! ### The step of `add` and `sub` (R160, R161, R162) -/

/-- Perform has one arm for the two (R161, R162). -/
theorem stepDecoded_sub (src : Src w) (b : Block w pcw) : stepDecoded (.sub src) b = stepDecoded (.add src) b := rfl

/-- So a row of `sub` does what the row of `add` with its operand does (R162). -/
theorem exec_sub_eq_exec_add {i j : Instr} {src : Src Config.W} (hi : i.decoded = .sub src) (hj : j.decoded = .add src)
    (s : State) : exec i s = exec j s := by
  rw [exec_eq_stepDecoded, exec_eq_stepDecoded, hi, hj, stepDecoded_sub]

/-- ACC after an `add` (R160). -/
theorem stepDecoded_add_acc (src : Src w) (b : Block w pcw) :
    (stepDecoded (.add src) b).acc = aluXor b.acc (operandMux src b) := by
  rw [stepDecoded_eq_perform, perform, xorIntoAcc_acc]

/-- SIGN after an `add` is the top bit of the new ACC (R160). -/
theorem stepDecoded_add_sign (src : Src w) (b : Block w pcw) :
    (stepDecoded (.add src) b).sign = signOf (aluXor b.acc (operandMux src b)) := by
  rw [stepDecoded_sign_of_writesSign ⟨src, .inl rfl⟩, stepDecoded_add_acc]

/-- An `add` leaves its own operand: it writes no general register (R22, R160). -/
theorem operandMux_stepDecoded_add (src : Src w) (b : Block w pcw) :
    operandMux src (stepDecoded (.add src) b) = operandMux src b := by
  cases src with
  | reg r => simp [operandMux, readReg_stepDecoded]
  | imm v => rfl

/-- The second of two equal `add`s undoes what the first did to ACC (R163). -/
theorem stepDecoded_add_add_acc (src : Src w) (b : Block w pcw) :
    (stepDecoded (.add src) (stepDecoded (.add src) b)).acc = b.acc := by
  rw [stepDecoded_add_acc, operandMux_stepDecoded_add, stepDecoded_add_acc, aluXor_aluXor_cancel]

/-- SIGN after an `add` tells whether exactly one of ACC and the operand was negative (R163). -/
theorem stepDecoded_add_sign_eq_one_iff (src : Src w) (b : Block w pcw) :
    (stepDecoded (.add src) b).sign = 1#1 ↔ ¬(sint b.acc < 0 ↔ sint (operandMux src b) < 0) := by
  rw [stepDecoded_add_sign, signOf_eq_one_iff, sint_aluXor_neg_iff]

/-- Settles O21: the laws of the words, then the two consequences for `add`, which are those for `sub`. -/
theorem lawsOfTheXorAlu : Obligations.LawsOfTheXorAlu := by
  refine ⟨fun w x y v => ⟨aluXor_aluXor_cancel x v, BitVec.xor_zero, BitVec.xor_self, BitVec.xor_comm x y,
    BitVec.xor_assoc x y v, fun hw => sint_aluXor_neg_one hw x, BitVec.getLsbD_xor⟩, fun w pcw src b => ?_⟩
  simp only [stepDecoded_sub]
  exact ⟨stepDecoded_add_add_acc src b, stepDecoded_add_add_acc src b,
    stepDecoded_add_sign_eq_one_iff src b, stepDecoded_add_sign_eq_one_iff src b⟩

/-! ### The rows of `add` and `sub` -/

/-- Settles O5: Perform's arm for `add`, its operand a register (R160). -/
theorem addRegisterXorsIntoTheAccumulator : Obligations.AddRegisterXorsIntoTheAccumulator :=
  fun r s => exec_eq_perform (.addR r) s

/-- Settles O6: Perform's arm for `add`, its operand the immediate field (R160). -/
theorem addImmediateXorsIntoTheAccumulator : Obligations.AddImmediateXorsIntoTheAccumulator :=
  fun imm s => exec_eq_perform (.addI imm) s

/-- Settles O7: `sub` is `add` (R161). -/
theorem subRegisterXorsIntoTheAccumulator : Obligations.SubRegisterXorsIntoTheAccumulator :=
  fun r s => (exec_sub_eq_exec_add rfl rfl s).trans (addRegisterXorsIntoTheAccumulator r s)

/-- Settles O8: `sub` is `add` (R161). -/
theorem subImmediateXorsIntoTheAccumulator : Obligations.SubImmediateXorsIntoTheAccumulator :=
  fun imm s => (exec_sub_eq_exec_add rfl rfl s).trans (addImmediateXorsIntoTheAccumulator imm s)

/-- Settles O17: after the `save`, ACC and Rn are equal, and the `add` XORs the one into the other (R237). -/
theorem saveThenAddOfTheSameRegisterClearsAcc : Obligations.SaveThenAddOfTheSameRegisterClearsAcc := by
  intro r s
  obtain ⟨t, hsave, hsaved, -, hacc, -, hpc, -⟩ := saveCopiesTheAccumulator r s
  have hzero : aluXor t.acc (operandMux (.reg r) t.toBlock) = 0#Config.W := by
    rw [operandMux, hsaved, hacc, aluXor, BitVec.xor_self]
  refine ⟨t, _, hsave, exec_eq_stepDecoded (.addR r) t, ?acc, ?sign, ?reg, ?pc⟩
  case acc => exact (stepDecoded_add_acc (.reg r) t.toBlock).trans hzero
  case sign =>
    refine (stepDecoded_add_sign (.reg r) t.toBlock).trans ?_
    rw [hzero]
    rfl
  case reg => exact (operandMux_stepDecoded_add (.reg r) t.toBlock).trans hsaved
  case pc =>
    refine (uint_stepDecoded_pc (.add (.reg r)) t.toBlock).trans ?_
    rw [hpc, uint, BitVec.toNat_add, Nat.mod_add_mod]
    rfl

/-! ### The words of `add` and `sub` (R162) -/

/-- The five bits of CTRL below OPC (R75). -/
theorem ctrlByte_below_opc (opc : BitVec 3) (s : BitVec 1) (k rs : BitVec 2) :
    (ctrlByte opc s k rs).extractLsb' 0 5 = s ++ k ++ rs := by
  revert opc s k rs
  decide

/-- The canonical words of `add X` and `sub X` have the same fields below their OPC (R82, R162). -/
theorem asm_add_sub_eq_fieldWord (src : Src w) : ∃ (s : BitVec 1) (rs : BitVec 2) (imm : BitVec w),
    asm (.add src) = fieldWord 0b010#3 s 0 rs imm ∧ asm (.sub src) = fieldWord 0b011#3 s 0 rs imm := by
  cases src with
  | reg r => exact ⟨0, r.index, 0#w, asm_eq_fieldWord (.add (.reg r)), asm_eq_fieldWord (.sub (.reg r))⟩
  | imm v => exact ⟨1, 0, v, asm_eq_fieldWord (.add (.imm v)), asm_eq_fieldWord (.sub (.imm v))⟩

/-- Settles O20: one step for both, and words that agree in every field but OPC. -/
theorem addAndSubHaveTheSameEffect : Obligations.AddAndSubHaveTheSameEffect := by
  refine ⟨fun _ _ src b => (stepDecoded_sub src b).symm, fun r s => (exec_sub_eq_exec_add rfl rfl s).symm,
    fun v s => (exec_sub_eq_exec_add rfl rfl s).symm, fun w src => ?_⟩
  obtain ⟨s, rs, imm, hadd, hsub⟩ := asm_add_sub_eq_fieldWord src
  simp only [hadd, hsub, ctrlOf_fieldWord, opcOf_ctrlByte, ctrlByte_below_opc, immOf_fieldWord, true_and]
  exact ⟨rfl, rfl⟩

end Sys2Proof.Machine
end

section
/-! PROOFS: the family 44_unknown_and_error.md. What stands on `err_o` after a line tells which failing instruction the
line decoded to; so the lines that fail with a kind are found rule by rule in TextDecode: first the operand rules, then
the tokens of a line (R71). -/

namespace Sys2Proof

open Sys2Proof.Machine

variable {w pcw : Nat}

/-! ### The code on `err_o` and the decoded instruction (R181, R200) -/

/-- A kind's code is the result of its own error and of nothing else (R200). -/
theorem resultCode_eq_failCode_iff (r : StepResult) (k : FailKind) : resultCode r = failCode k ↔ r = .err k := by
  cases r with
  | ok => simpa using (failCode_ne_zero k).symm
  | err j => cases j <;> cases k <;> decide

/-- Perform answers a kind's error for the failing instruction of that kind alone (R181). -/
theorem perform_snd_eq_err_iff (d : Decoded w) (b : Block w pcw) (k : FailKind) :
    (perform d b).2 = .err k ↔ d = .fail k := by
  cases d <;> simp [perform]

/-- A line's step ends with a kind's code exactly when the line decodes to the failing instruction of that kind. -/
theorem executeLine_err_eq_failCode_iff (line : Line) (b : Block w pcw) (k : FailKind) :
    (∃ c, executeLine line b = .ok c ∧ c.err = failCode k) ↔ textDecode w line = .ok (.fail k) := by
  rcases executeLine_cases line b with ⟨reason, hd, hx⟩ | ⟨d, hd, hx⟩
  · simp [hd, hx]
  · simp [hd, hx, stepDecoded_err, resultCode_eq_failCode_iff, perform_snd_eq_err_iff]

/-! ### Which operand tokens fail (R71, R182, R183) -/

theorem regNamed_eq_none_iff (t : Token) :
    regNamed t = none ↔ t ∉ ["R1".toList, "R2".toList, "R3".toList, "R4".toList] := by
  constructor
  · intro h hmem
    have hname (r : Reg) : t ≠ r.name := fun ht => by simp [ht] at h
    simp only [List.mem_cons, List.not_mem_nil, or_false] at hmem
    obtain ht | ht | ht | ht := hmem
    · exact hname .r1 ht
    · exact hname .r2 ht
    · exact hname .r3 ht
    · exact hname .r4 ht
  · intro h
    refine Option.eq_none_iff_forall_ne_some.2 fun r hr => h ?_
    rw [(regNamed_eq_some_iff t r).1 hr]
    cases r <;> decide

/-- The literal arm fails on a token of class `notLit`, and with one kind (R71). -/
theorem literalOperand_eq_fail_iff {t : Token} {make : BitVec w → Decoded w} {k : FailKind}
    (hmake : ∀ v, make v ≠ .fail k) :
    literalOperand w t make = .ok (.fail k) ↔ classLit w t = .notLit ∧ k = .invalidOperand := by
  unfold literalOperand
  split <;> simp [*, eq_comm]

/-- The operand of `add` and `sub` is looked up as a register first (R69, R71). -/
theorem sourceOperand_eq_fail_iff {t : Token} {make : Src w → Decoded w} {k : FailKind}
    (hmake : ∀ src, make src ≠ .fail k) :
    sourceOperand w t make = .ok (.fail k) ↔ regNamed t = none ∧ classLit w t = .notLit ∧ k = .invalidOperand := by
  cases hreg : regNamed t with
  | some r => simp [sourceOperand, hreg, hmake]
  | none => simpa [sourceOperand, hreg] using literalOperand_eq_fail_iff fun v => hmake (.imm v)

/-- The operand of `save` fails when it names no register, and with a kind of its own (R71). -/
theorem decodeOperand_save_eq_fail_iff (t : Token) (k : FailKind) :
    decodeOperand w .save t = .ok (.fail k) ↔ regNamed t = none ∧ k = .unknownRegister := by
  cases hreg : regNamed t <;> simp [decodeOperand, hreg, eq_comm]

/-- Where a literal is possible, only `mov` fails on a register name (R71). -/
theorem decodeOperand_eq_fail_iff {o : TextOp} (ho : o ≠ .save) (t : Token) (k : FailKind) :
    decodeOperand w o t = .ok (.fail k) ↔
      (o = .mov ∨ regNamed t = none) ∧ classLit w t = .notLit ∧ k = .invalidOperand := by
  cases o with
  | save => exact absurd rfl ho
  | mov => simp [decodeOperand, literalOperand_eq_fail_iff]
  | add | sub => simp [decodeOperand, sourceOperand_eq_fail_iff]

/-! ### Which lines fail (R71, R184) -/

/-- A line fails for want of a token, or by the rule of its operand (R71). -/
theorem decodeTokens_eq_fail_iff (ts : List Token) (k : FailKind) :
    decodeTokens w ts = .ok (.fail k) ↔
      (k = .malformedInstruction ∧ (ts = [] ∨ ∃ op, ts = [op] ∧ isRecognized op)) ∨
      ∃ op t rest o, ts = op :: t :: rest ∧ opcodeOf op = some o ∧ decodeOperand w o t = .ok (.fail k) := by
  simp only [isRecognized_iff]
  cases ts with
  | nil => simp [decodeTokens, eq_comm]
  | cons op operands =>
    cases ho : opcodeOf op with
    | none => cases operands <;> simp [decodeTokens, ho]
    | some o => cases operands <;> simp [decodeTokens, ho, eq_comm]

/-- The same on the block: a line that fails holds no character outside the set, and its tokens fail (R62, R71). -/
theorem executeLine_err_eq_failCode_iff_tokens (line : Line) (b : Block w pcw) (k : FailKind) :
    (∃ c, executeLine line b = .ok c ∧ c.err = failCode k) ↔
      line.all inCharset = true ∧ decodeTokens w (tokenize line) = .ok (.fail k) := by
  rw [executeLine_err_eq_failCode_iff, textDecode]
  split <;> simp [*]

/-- Settles O40: `save` fails with a kind of its own, so the opcode is one of the other three, and all but `mov` look the
token up as a register first. -/
theorem invalidOperandExactly : Obligations.InvalidOperandExactly := by
  intro w pcw line b
  refine (executeLine_err_eq_failCode_iff_tokens line b .invalidOperand).trans (and_congr_right fun _ => ?_)
  simp only [decodeTokens_eq_fail_iff, reduceCtorEq, false_and, false_or, ← regNamed_eq_none_iff]
  constructor
  · rintro ⟨op, tok, rest, o, htok, ho, hfail⟩
    have hsave : o ≠ .save := fun h => by simp [h, decodeOperand_save_eq_fail_iff] at hfail
    obtain ⟨hreg, hclass, -⟩ := (decodeOperand_eq_fail_iff hsave tok .invalidOperand).1 hfail
    refine ⟨op, tok, rest, htok, hclass, ?_⟩
    have hop := (opcodeOf_eq_some_iff op o).1 ho
    cases o with
    | mov => exact .inl hop
    | save => exact absurd rfl hsave
    | add => exact .inr ⟨.inl hop, by simpa using hreg⟩
    | sub => exact .inr ⟨.inr hop, by simpa using hreg⟩
  · rintro ⟨op, tok, rest, htok, hclass, hop⟩
    have hfail {o : TextOp} (hsave : o ≠ .save) (hreg : o = .mov ∨ regNamed tok = none) :=
      (decodeOperand_eq_fail_iff hsave tok .invalidOperand).2 ⟨hreg, hclass, rfl⟩
    obtain hop | ⟨hop | hop, hreg⟩ := hop
    · exact ⟨op, tok, rest, .mov, htok, (opcodeOf_eq_some_iff op .mov).2 hop, hfail nofun (.inl rfl)⟩
    · exact ⟨op, tok, rest, .add, htok, (opcodeOf_eq_some_iff op .add).2 hop, hfail nofun (.inr hreg)⟩
    · exact ⟨op, tok, rest, .sub, htok, (opcodeOf_eq_some_iff op .sub).2 hop, hfail nofun (.inr hreg)⟩

/-- Settles O41: no opcode but `save` answers this kind. -/
theorem unknownRegisterExactly : Obligations.UnknownRegisterExactly := by
  intro w pcw line b
  refine (executeLine_err_eq_failCode_iff_tokens line b .unknownRegister).trans (and_congr_right fun _ => ?_)
  simp only [decodeTokens_eq_fail_iff, reduceCtorEq, false_and, false_or, ← regNamed_eq_none_iff]
  constructor
  · rintro ⟨op, tok, rest, o, htok, ho, hfail⟩
    have hsave : o = .save := by_contra fun h => by simp [decodeOperand_eq_fail_iff h] at hfail
    subst hsave
    obtain ⟨hreg, -⟩ := (decodeOperand_save_eq_fail_iff tok .unknownRegister).1 hfail
    rw [(opcodeOf_eq_some_iff op .save).1 ho] at htok
    exact ⟨tok, rest, htok, hreg⟩
  · rintro ⟨tok, rest, htok, hreg⟩
    exact ⟨_, tok, rest, .save, htok, rfl, (decodeOperand_save_eq_fail_iff tok .unknownRegister).2 ⟨hreg, rfl⟩⟩

/-- Settles O42: no operand token is malformed, so a token is missing. -/
theorem malformedInstructionExactly : Obligations.MalformedInstructionExactly := by
  intro w pcw line b
  refine (executeLine_err_eq_failCode_iff_tokens line b .malformedInstruction).trans (and_congr_right fun _ => ?_)
  rw [decodeTokens_eq_fail_iff]
  refine ⟨?_, fun h => .inl ⟨rfl, h⟩⟩
  rintro (⟨-, h⟩ | ⟨op, tok, rest, o, -, -, hfail⟩)
  · exact h
  · by_cases hsave : o = .save
    · simp [hsave, decodeOperand_save_eq_fail_iff] at hfail
    · simp [decodeOperand_eq_fail_iff hsave] at hfail

/-! ### The rows of ERR and of unknown words (R180, R181) -/

/-- Settles O9: Perform of a failing instruction writes nothing and answers its kind (R181). -/
theorem errWordsReportTheirKindAndCompleteTheStep : Obligations.ErrWordsReportTheirKindAndCompleteTheStep :=
  fun s => ⟨exec_eq_perform .errInvalidOperand s, exec_eq_perform .errUnknownRegister s,
    exec_eq_perform .errMalformedInstruction s⟩

/-- Settles O10: Perform of Unknown writes nothing and answers Ok (R180). -/
theorem unknownWordsDoOnlyTheCommonStep : Obligations.UnknownWordsDoOnlyTheCommonStep :=
  fun s => ⟨exec_eq_perform .unkOpc100 s, exec_eq_perform .unkOpc101 s, exec_eq_perform .unkOpc110 s,
    exec_eq_perform .unkOpc111 s⟩

end Sys2Proof
end

section
/-! PROOFS: the family 60_exceptions.md. The codes of the error kinds and the output record are read off the definitions
and the codec; a run under `halt` is compared with one under `skip` offer by offer. -/

namespace Sys2Proof.Machine

variable {w pcw : Nat}

/-! ### The codes (R200) -/

theorem toNat_failCode (k : FailKind) : (failCode k).toNat = (ErrorKind.step k).code := by
  cases k <;> rfl

/-- Settles O19: the table of codes, read kind by kind. That code 4 does not fit `err_o` is part of R106. -/
theorem errorKindsHaveTheirCodes : Obligations.ErrorKindsHaveTheirCodes := by
  obtain ⟨-, herr⟩ := Codec.malformedBitStringsAreRejected
  exact ⟨resultCode_ok, toNat_failCode, rfl, rfl, rfl, rfl, herr⟩

/-! ### The output record (R214) -/

theorem render_eq_bitStringOf (hw : 1 ≤ w) (x : BitVec w) : render x = some (bitStringOf x) := Codec.encode_sint hw x

/-- Settles O49: each of the five registers is rendered as its bits (R108), and the other fields are copied. -/
theorem outputRecordShowsTheState : Obligations.OutputRecordShowsTheState := by
  intro w pcw text b hw
  simp only [outputRecord, render_eq_bitStringOf hw]
  rfl

/-! ### Runs under the two policies (R209, R219) -/

/-- Under `skip` the run goes on whatever the step's result. -/
theorem hostRun_skip_cons {o : Offer w} {b c : Block w pcw} (h : b.take o = .ok c) (rest : List (Offer w)) :
    hostRun .skip (o :: rest) b = hostRun .skip rest c := by
  simp [hostRun_cons_ok h]

/-- Under `halt` the run goes on after an `Ok`. -/
theorem hostRun_halt_cons_of_err_eq_zero {o : Offer w} {b c : Block w pcw} (h : b.take o = .ok c) (hc : c.err = 0#2)
    (rest : List (Offer w)) : hostRun .halt (o :: rest) b = hostRun .halt rest c := by
  rw [hostRun_cons_ok h, if_neg fun hstop => (stopsAfter_halt c).1 hstop hc]

/-- Under `halt` the run ends with an `Err`. -/
theorem hostRun_halt_cons_of_err_ne_zero {o : Offer w} {b c : Block w pcw} (h : b.take o = .ok c) (hc : c.err ≠ 0#2)
    (rest : List (Offer w)) : hostRun .halt (o :: rest) b = .ok c := by
  rw [hostRun_cons_ok h, if_pos ((stopsAfter_halt c).2 hc)]

/-- No step of the run under `skip`, save perhaps its last, answers an `Err`. -/
def NoErrBeforeTheLast (offers : List (Offer w)) (b : Block w pcw) : Prop :=
  ∀ pre o post c, offers = pre ++ o :: post → pre ≠ [] → hostRun .skip pre b = .ok c → c.err = 0#2

theorem noErrBeforeTheLast_nil (b : Block w pcw) : NoErrBeforeTheLast [] b :=
  fun _ _ _ _ hsplit => by simp at hsplit

theorem noErrBeforeTheLast_singleton (o : Offer w) (b : Block w pcw) : NoErrBeforeTheLast [o] b := by
  intro pre o' post c hsplit hpre
  simp [List.singleton_eq_append_iff, hpre] at hsplit

/-- The first step answers `Ok` and the rest of the run has the property, or the first step is refused. -/
theorem noErrBeforeTheLast_cons {o : Offer w} {rest : List (Offer w)} {b : Block w pcw}
    (h : ∀ c, b.take o = .ok c → c.err = 0#2 ∧ NoErrBeforeTheLast rest c) : NoErrBeforeTheLast (o :: rest) b := by
  intro pre o' post d hsplit hpre hrun
  obtain ⟨first, pre, rfl⟩ := List.exists_cons_of_ne_nil hpre
  obtain ⟨rfl, hrest⟩ := List.cons.inj hsplit
  cases htake : b.take o with
  | error reason => simp [hostRun_cons_error htake] at hrun
  | ok c =>
    obtain ⟨hc, hnoErr⟩ := h c htake
    rw [hostRun_skip_cons htake] at hrun
    by_cases hnil : pre = []
    · subst hnil
      obtain rfl : c = d := by simpa using hrun
      exact hc
    · exact hnoErr pre o' post d hrest hnil hrun

/-- Settles O52, by induction on the offers. A refused offer ends both runs. An offer answered with an `Err` is the last
that `halt` takes, and leaves the others out. After an `Ok` the rest of the offers is cut where `halt` cuts it. -/
theorem haltRunIsASkipRunUpToTheFirstError : Obligations.HaltRunIsASkipRunUpToTheFirstError := by
  intro w pcw offers
  induction offers with
  | nil => exact fun b => ⟨[], [], rfl, rfl, fun h => absurd rfl h, noErrBeforeTheLast_nil b⟩
  | cons o rest ih =>
    intro b
    cases htake : b.take o with
    | error reason =>
      refine ⟨o :: rest, [], by simp, ?_, fun h => absurd rfl h, noErrBeforeTheLast_cons fun c hc => ?_⟩
      · rw [hostRun_cons_error htake, hostRun_cons_error htake]
      · simp [htake] at hc
    | ok c =>
      by_cases hc : c.err = 0#2
      case neg =>
        have hskip : hostRun .skip [o] b = .ok c := hostRun_skip_cons htake []
        refine ⟨[o], rest, rfl, ?_, fun _ => ⟨c, hskip, hc⟩, noErrBeforeTheLast_singleton o b⟩
        rw [hostRun_halt_cons_of_err_ne_zero htake hc, hskip]
      case pos =>
        obtain ⟨done, left, hsplit, hrun, hleft, hnoErr⟩ := ih c
        refine ⟨o :: done, left, by rw [hsplit, List.cons_append], ?_, ?_, noErrBeforeTheLast_cons fun d hd => ?_⟩
        · rw [hostRun_halt_cons_of_err_eq_zero htake hc, hostRun_skip_cons htake, hrun]
        · rw [hostRun_skip_cons htake]
          exact hleft
        · obtain rfl : c = d := by simpa [htake] using hd
          exact ⟨hc, hnoErr⟩

end Sys2Proof.Machine
end

section
/-! PROOFS: the family 70_reset_and_hazards.md. Every row is a step of the block, so what the first step finds is the
reset block (R230). -/

namespace Sys2Proof.Machine

variable {w pcw : Nat}

/-! ### The first step after reset (R234, R235) -/

/-- PC counts the first step, whatever its instruction (R234). -/
theorem stepDecoded_reset_pc (d : Decoded w) : (stepDecoded d (Block.reset w pcw)).pc = 1#pcw := by
  rw [stepDecoded_pc, nextPc_eq, reset_pc, BitVec.zero_add]

/-- The ALU of the first step is given two zeros when its operand is a register (R235). -/
theorem aluXor_operandMux_reset (r : Reg) :
    aluXor (Block.reset w pcw).acc (operandMux (.reg r) (Block.reset w pcw)) = 0#w := by
  rw [operandMux, readReg_reset, reset_acc, aluXor, BitVec.xor_self]

/-- Settles O18: each row is the step of its decoded instruction on the reset block. -/
theorem firstStepAfterReset : Obligations.FirstStepAfterReset := by
  refine ⟨fun i => ⟨_, exec_eq_stepDecoded i State.reset, ?pc, ?tc⟩,
    fun r => ⟨_, exec_eq_stepDecoded (.addR r) State.reset, ?acc, ?sign⟩⟩
  case pc => exact stepDecoded_reset_pc i.decoded
  case tc => exact stepDecoded_tc i.decoded (Block.reset Config.W Config.PCW)
  case acc => exact (stepDecoded_add_acc (.reg r) (Block.reset _ _)).trans (aluXor_operandMux_reset r)
  case sign =>
    refine (stepDecoded_add_sign (.reg r) (Block.reset _ _)).trans ?_
    rw [aluXor_operandMux_reset]
    rfl

end Sys2Proof.Machine
end

section
/-! PROOFS: the family other. What the model's supply adds to the block: a step takes the oldest offer, and so a run of
the machine is the host's; last the numbers that the decoder reads its words from. -/

namespace Sys2Proof.Machine

/-! ### The supply (log entries 3, 4, 5 and 19) -/

/-- A step answers the oldest offer, on the state with that offer taken away. -/
theorem step_supply_cons (s : State) (o : Offer Config.W) (rest : List (Offer Config.W)) :
    step { s with supply := o :: rest } = takeOffer o { s with supply := rest } := rfl

/-- Without an offer a step changes nothing. -/
theorem step_of_supply_nil {s : State} (h : s.supply = []) : step s = .next s := by
  simp only [step, takeNext, h]

/-- A word placed for the next step is run as the instruction it decodes to. -/
theorem step_withFetchWord (s : State) (nbits w : Nat) :
    step (s.withFetchWord nbits w) = exec (decode (portWord nbits w)) s :=
  step_supply_cons s (.word (portWord nbits w)) s.supply

/-- Settles O2: each clause is the answer to its kind of offer. -/
theorem stepRunsTheDecodedInstruction : Obligations.StepRunsTheDecodedInstruction := by
  intro s rest
  refine ⟨fun iw => step_supply_cons s (.word iw) rest, fun text => step_supply_cons s (.line text) rest,
    step_supply_cons s .reset rest, step_of_supply_nil rfl, fun nbits w i hdecode => ?_⟩
  rw [step_withFetchWord, Option.some.inj hdecode]

/-! ### A run of the machine (R219, log entries 6 and 10) -/

/-- When the host had nothing left to offer, the first of its new offers is taken next. -/
theorem step_offering_cons {s : State} (hs : s.supply = []) (o : Offer Config.W) (rest : List (Offer Config.W)) :
    step (s.offering (o :: rest)) = takeOffer o (s.offering rest) := by
  simp only [State.offering, hs, List.nil_append, step_supply_cons]

/-- Settles O51, by induction on the offers: the machine goes on where the block takes an offer, and both runs end where
it refuses one. -/
theorem coreRunIsTheHostsRunUnderSkip : Obligations.CoreRunIsTheHostsRunUnderSkip := by
  intro offers
  induction offers with
  | nil =>
    intro s hs
    have hoffering : s.offering [] = s := by simp only [State.offering, List.append_nil]
    simp only [hostRun_nil, hoffering, Except.ok.injEq]
    exact ⟨fun b hb => hb ▸ rfl, fun reason h => nomatch h⟩
  | cons o rest ih =>
    intro s hs
    have hstep := step_offering_cons hs o rest
    cases htake : s.toBlock.take o with
    | ok c =>
      rw [takeOffer_of_take_ok (s := s.offering rest) htake] at hstep
      rw [hostRun_skip_cons htake, List.length_cons, core_run_succ_next hstep]
      exact ih (s.withBlock c) hs
    | error reason =>
      rw [takeOffer_of_take_error (s := s.offering rest) htake] at hstep
      rw [hostRun_cons_error htake, List.length_cons, core_run_succ_refused hstep]
      exact ⟨fun b h => (nomatch h), fun reason' h => by rw [Except.error.inj h]⟩

/-! ### Words written as numbers of 40 bits (R42, log entry 8) -/

/-- The padding does not change a word's number. -/
theorem portWord_uint (iw : IWord Config.W) : portWord 40 (uint iw) = iw := by
  have hlt : uint iw < 2 ^ 40 := iw.isLt.trans (by decide)
  rw [portWord, Nat.mod_eq_of_lt hlt, BitVec.ofNat_toNat, BitVec.setWidth_eq]

theorem decodeTableWord_of_uint_eq {iw : IWord Config.W} {n : Nat} (h : uint iw = n) :
    decodeTableWord 40 n = some (decode iw) := by
  rw [← h, decodeTableWord, portWord_uint]

/-- The number of a row's encoding stands for that row. -/
theorem decodeTableWord_of_uint_encode_eq {i : Instr} {n : Nat} (h : uint (encode i) = n) :
    decodeTableWord 40 n = some i := by
  rw [decodeTableWord_of_uint_eq h, decodeInvertsEncodeOnEveryRow]

/-- OPC = 000 is `mov`, whatever the other bits of CTRL (R79, R80). -/
theorem decode_opc000 (s : BitVec 1) (k rs : BitVec 2) (imm : Word) :
    decode (fieldWord 0b000#3 s k rs imm) = .mov imm := by
  simp [decode]

/-- OPC = 111 is unknown, whatever the other bits (R79, R81). -/
theorem decode_opc111 (s : BitVec 1) (k rs : BitVec 2) (imm : Word) :
    decode (fieldWord 0b111#3 s k rs imm) = .unkOpc111 := by
  simp [decode]

/-- Settles O29: ten of the numbers are those of their row's encoding; the second and the last have ones in ignored
fields, which their OPC's lemma does not read. -/
theorem wordsOfTheTestVectorsDecode : Obligations.WordsOfTheTestVectorsDecode := by
  refine ⟨?_, ?ignored_mov, ?_, ?_, ?_, ?_, ?_, ?_, ?_, ?_, ?_, ?ignored_unknown⟩
  case ignored_mov =>
    have hword : uint (fieldWord 0b000#3 1#1 0b11#2 0b11#2 (-1 : Word)) = 0x07FFFFFFFF := by decide
    rw [decodeTableWord_of_uint_eq hword, decode_opc000]
  case ignored_unknown =>
    have hword : uint (fieldWord 0b111#3 1#1 0b11#2 0b11#2 (-1 : Word)) = 0x3FFFFFFFFF := by decide
    rw [decodeTableWord_of_uint_eq hword, decode_opc111]
  all_goals exact decodeTableWord_of_uint_encode_eq (by decide)

end Sys2Proof.Machine
end
